-- ==== Sys2Proof/Word.lean ====
section
/-! DEFINITION. The word types of the unit (00_scope R6, R8; 30_encoding R61): every value is an unsigned bit vector of the
width the spec gives it. Fields, extensions and byte order are in Decode.lean and Machine/. -/

namespace Sys2Proof

/-- An 8-bit value: a memory cell, a variable register, a timer, an immediate `nn` (R6, R61). -/
abbrev Byte := BitVec 8

/-- A 16-bit value: an opcode, `pc`, `I`, a stack entry (R6, D30). -/
abbrev Word := BitVec 16

/-- A 4-bit slice of an opcode (R9). -/
abbrev Nibble := BitVec 4

/-- The 12-bit address field `nnn` (R61). -/
abbrev Addr12 := BitVec 12

/-- The number of a variable register, V0 to VF (R17). -/
abbrev Reg := Fin 16

/-- A logical key code 0x0 to 0xF (R20). -/
abbrev Key := BitVec 4

end Sys2Proof
end

