-- ==== Sys2Proof/Syntax.lean ====
section
/-! DEFINITION. The instruction set: one constructor per row of spec/opcode_table.json, in the table's order (30_encoding R64).
An operand has the width of its field (R61, R62); the row count `n` of DRW is a count. UNKNOWN is no instruction (R67): the
decoder rejects it by name. -/

namespace Sys2Proof

/-- The 34 instructions of 30_encoding R64. -/
inductive Instr where
  /-- `00E0` CLS (R160) -/
  | cls
  /-- `00EE` RET (R100) -/
  | ret
  /-- `1nnn` JP nnn (R101) -/
  | jp (nnn : Addr12)
  /-- `2nnn` CALL nnn (R102) -/
  | call (nnn : Addr12)
  /-- `3xnn` SE Vx, nn (R103) -/
  | seImm (x : Reg) (nn : Byte)
  /-- `4xnn` SNE Vx, nn (R104) -/
  | sneImm (x : Reg) (nn : Byte)
  /-- `5xy0` SE Vx, Vy (R105) -/
  | seReg (x y : Reg)
  /-- `6xnn` LD Vx, nn (R120) -/
  | ldImm (x : Reg) (nn : Byte)
  /-- `7xnn` ADD Vx, nn (R121) -/
  | addImm (x : Reg) (nn : Byte)
  /-- `8xy0` LD Vx, Vy (R122) -/
  | ldReg (x y : Reg)
  /-- `8xy1` OR Vx, Vy (R123) -/
  | orReg (x y : Reg)
  /-- `8xy2` AND Vx, Vy (R124) -/
  | andReg (x y : Reg)
  /-- `8xy3` XOR Vx, Vy (R125) -/
  | xorReg (x y : Reg)
  /-- `8xy4` ADD Vx, Vy (R126) -/
  | addReg (x y : Reg)
  /-- `8xy5` SUB Vx, Vy (R127) -/
  | subReg (x y : Reg)
  /-- `8xy6` SHR Vx; the field `y` is kept and ignored (R128) -/
  | shr (x y : Reg)
  /-- `8xy7` SUBN Vx, Vy (R129) -/
  | subnReg (x y : Reg)
  /-- `8xyE` SHL Vx; the field `y` is kept and ignored (R130) -/
  | shl (x y : Reg)
  /-- `9xy0` SNE Vx, Vy (R106) -/
  | sneReg (x y : Reg)
  /-- `Annn` LD I, nnn (R140) -/
  | ldI (nnn : Addr12)
  /-- `Bnnn` JP V0, nnn (R107) -/
  | jpV0 (nnn : Addr12)
  /-- `Cxnn` RND Vx, nn (R134) -/
  | rnd (x : Reg) (nn : Byte)
  /-- `Dxyn` DRW Vx, Vy, n; `n` is a row count, 0 to 15 in a well-formed instruction (R62, R161) -/
  | drw (x y : Reg) (n : Nat)
  /-- `Ex9E` SKP Vx (R170) -/
  | skp (x : Reg)
  /-- `ExA1` SKNP Vx (R171) -/
  | sknp (x : Reg)
  /-- `Fx07` LD Vx, DT (R173) -/
  | ldVxDt (x : Reg)
  /-- `Fx0A` LD Vx, K (R172) -/
  | ldVxK (x : Reg)
  /-- `Fx15` LD DT, Vx (R174) -/
  | ldDtVx (x : Reg)
  /-- `Fx18` LD ST, Vx (R175) -/
  | ldStVx (x : Reg)
  /-- `Fx1E` ADD I, Vx (R141) -/
  | addI (x : Reg)
  /-- `Fx29` LD F, Vx (R142) -/
  | ldF (x : Reg)
  /-- `Fx33` LD B, Vx (R143) -/
  | ldB (x : Reg)
  /-- `Fx55` LD [I], Vx (R144) -/
  | storeRegs (x : Reg)
  /-- `Fx65` LD Vx, [I] (R145) -/
  | loadRegs (x : Reg)
  deriving DecidableEq, Repr

/-- Why a decoder gives no instruction. -/
inductive DecodeError where
  /-- The word selects no row of R64: "unrecognized opcode pattern" (R67). Step runs it as the reported no-op of R86. -/
  | unknownOpcode (op : Word)
  /-- Fewer than the two bytes an instruction has (R60); only a byte list handed to `decode` from outside can be short. -/
  | truncated
  deriving DecidableEq, Repr

end Sys2Proof
end

