-- ==== Sys2Proof/Decode.lean ====
section
/-! DEFINITION. Instruction fields, the decoder and the encoder (30_encoding R60 to R67). The decoder is the dispatch of R63; the
encoder is written from the opcode map of R64. Byte order of a word in memory: big-endian (20_memory R46). -/

namespace Sys2Proof

/-- `fam`, bits 15:12 (R61). -/
def fieldFam (op : Word) : Nibble := op.extractLsb' 12 4

/-- `x`, bits 11:8, as a register number (R61). -/
def fieldX (op : Word) : Reg := (op.extractLsb' 8 4).toFin

/-- `y`, bits 7:4, as a register number (R61). -/
def fieldY (op : Word) : Reg := (op.extractLsb' 4 4).toFin

/-- `n`, bits 3:0 (R61). -/
def fieldN (op : Word) : Nibble := op.extractLsb' 0 4

/-- `nn`, bits 7:0 (R61). -/
def fieldNN (op : Word) : Byte := op.extractLsb' 0 8

/-- `nnn`, bits 11:0 (R61). -/
def fieldNNN (op : Word) : Addr12 := op.extractLsb' 0 12

/-- Family 0: the whole word is compared (R63, D11). -/
def decodeFam0 (op : Word) : Option Instr :=
  if op = 0x00E0 then some .cls
  else if op = 0x00EE then some .ret
  else none

/-- Family 8: by the low nibble (R63, R65). -/
def decodeFam8 (op : Word) : Option Instr :=
  let x := fieldX op
  let y := fieldY op
  if fieldN op = 0x0 then some (.ldReg x y)
  else if fieldN op = 0x1 then some (.orReg x y)
  else if fieldN op = 0x2 then some (.andReg x y)
  else if fieldN op = 0x3 then some (.xorReg x y)
  else if fieldN op = 0x4 then some (.addReg x y)
  else if fieldN op = 0x5 then some (.subReg x y)
  else if fieldN op = 0x6 then some (.shr x y)
  else if fieldN op = 0x7 then some (.subnReg x y)
  else if fieldN op = 0xE then some (.shl x y)
  else none

/-- Family E: by the low byte (R63). -/
def decodeFamE (op : Word) : Option Instr :=
  if fieldNN op = 0x9E then some (.skp (fieldX op))
  else if fieldNN op = 0xA1 then some (.sknp (fieldX op))
  else none

/-- Family F: by the low byte (R63, R66). -/
def decodeFamF (op : Word) : Option Instr :=
  let x := fieldX op
  if fieldNN op = 0x07 then some (.ldVxDt x)
  else if fieldNN op = 0x0A then some (.ldVxK x)
  else if fieldNN op = 0x15 then some (.ldDtVx x)
  else if fieldNN op = 0x18 then some (.ldStVx x)
  else if fieldNN op = 0x1E then some (.addI x)
  else if fieldNN op = 0x29 then some (.ldF x)
  else if fieldNN op = 0x33 then some (.ldB x)
  else if fieldNN op = 0x55 then some (.storeRegs x)
  else if fieldNN op = 0x65 then some (.loadRegs x)
  else none

/-- The dispatch of R63 on the high nibble; `none` is the default arm UNKNOWN. -/
def dispatchWord (op : Word) : Option Instr :=
  if fieldFam op = 0x0 then decodeFam0 op
  else if fieldFam op = 0x1 then some (.jp (fieldNNN op))
  else if fieldFam op = 0x2 then some (.call (fieldNNN op))
  else if fieldFam op = 0x3 then some (.seImm (fieldX op) (fieldNN op))
  else if fieldFam op = 0x4 then some (.sneImm (fieldX op) (fieldNN op))
  else if fieldFam op = 0x5 then if fieldN op = 0 then some (.seReg (fieldX op) (fieldY op)) else none
  else if fieldFam op = 0x6 then some (.ldImm (fieldX op) (fieldNN op))
  else if fieldFam op = 0x7 then some (.addImm (fieldX op) (fieldNN op))
  else if fieldFam op = 0x8 then decodeFam8 op
  else if fieldFam op = 0x9 then if fieldN op = 0 then some (.sneReg (fieldX op) (fieldY op)) else none
  else if fieldFam op = 0xA then some (.ldI (fieldNNN op))
  else if fieldFam op = 0xB then some (.jpV0 (fieldNNN op))
  else if fieldFam op = 0xC then some (.rnd (fieldX op) (fieldNN op))
  else if fieldFam op = 0xD then some (.drw (fieldX op) (fieldY op) (fieldN op).toNat)
  else if fieldFam op = 0xE then decodeFamE op
  else decodeFamF op

/-- Decoding one opcode: the instruction, or the rejection by name that R86 executes as a reported no-op. -/
def decodeWord (op : Word) : Except DecodeError Instr :=
  match dispatchWord op with
  | some i => .ok i
  | none => .error (.unknownOpcode op)

/-- One row of the opcode map of R64: an opcode selects it when `op & mask = pattern`, and is then the instruction `instr op`. -/
structure OpcodeRow where
  mask : Word
  pattern : Word
  instr : Word → Instr

/-- `op & mask = match` (R64). -/
def OpcodeRow.selects (r : OpcodeRow) (op : Word) : Bool := op &&& r.mask == r.pattern

/-- Rows 1 to 9 of the opcode map (R64). -/
def opcodeMapLow : List OpcodeRow :=
  [⟨0xFFFF, 0x00E0, fun _ => .cls⟩,
   ⟨0xFFFF, 0x00EE, fun _ => .ret⟩,
   ⟨0xF000, 0x1000, fun op => .jp (fieldNNN op)⟩,
   ⟨0xF000, 0x2000, fun op => .call (fieldNNN op)⟩,
   ⟨0xF000, 0x3000, fun op => .seImm (fieldX op) (fieldNN op)⟩,
   ⟨0xF000, 0x4000, fun op => .sneImm (fieldX op) (fieldNN op)⟩,
   ⟨0xF00F, 0x5000, fun op => .seReg (fieldX op) (fieldY op)⟩,
   ⟨0xF000, 0x6000, fun op => .ldImm (fieldX op) (fieldNN op)⟩,
   ⟨0xF000, 0x7000, fun op => .addImm (fieldX op) (fieldNN op)⟩]

/-- Rows 10 to 18, family 8 (R64). -/
def opcodeMapAlu : List OpcodeRow :=
  [⟨0xF00F, 0x8000, fun op => .ldReg (fieldX op) (fieldY op)⟩,
   ⟨0xF00F, 0x8001, fun op => .orReg (fieldX op) (fieldY op)⟩,
   ⟨0xF00F, 0x8002, fun op => .andReg (fieldX op) (fieldY op)⟩,
   ⟨0xF00F, 0x8003, fun op => .xorReg (fieldX op) (fieldY op)⟩,
   ⟨0xF00F, 0x8004, fun op => .addReg (fieldX op) (fieldY op)⟩,
   ⟨0xF00F, 0x8005, fun op => .subReg (fieldX op) (fieldY op)⟩,
   ⟨0xF00F, 0x8006, fun op => .shr (fieldX op) (fieldY op)⟩,
   ⟨0xF00F, 0x8007, fun op => .subnReg (fieldX op) (fieldY op)⟩,
   ⟨0xF00F, 0x800E, fun op => .shl (fieldX op) (fieldY op)⟩]

/-- Rows 19 to 25 (R64). -/
def opcodeMapMid : List OpcodeRow :=
  [⟨0xF00F, 0x9000, fun op => .sneReg (fieldX op) (fieldY op)⟩,
   ⟨0xF000, 0xA000, fun op => .ldI (fieldNNN op)⟩,
   ⟨0xF000, 0xB000, fun op => .jpV0 (fieldNNN op)⟩,
   ⟨0xF000, 0xC000, fun op => .rnd (fieldX op) (fieldNN op)⟩,
   ⟨0xF000, 0xD000, fun op => .drw (fieldX op) (fieldY op) (fieldN op).toNat⟩,
   ⟨0xF0FF, 0xE09E, fun op => .skp (fieldX op)⟩,
   ⟨0xF0FF, 0xE0A1, fun op => .sknp (fieldX op)⟩]

/-- Rows 26 to 34, family F (R64). -/
def opcodeMapF : List OpcodeRow :=
  [⟨0xF0FF, 0xF007, fun op => .ldVxDt (fieldX op)⟩,
   ⟨0xF0FF, 0xF00A, fun op => .ldVxK (fieldX op)⟩,
   ⟨0xF0FF, 0xF015, fun op => .ldDtVx (fieldX op)⟩,
   ⟨0xF0FF, 0xF018, fun op => .ldStVx (fieldX op)⟩,
   ⟨0xF0FF, 0xF01E, fun op => .addI (fieldX op)⟩,
   ⟨0xF0FF, 0xF029, fun op => .ldF (fieldX op)⟩,
   ⟨0xF0FF, 0xF033, fun op => .ldB (fieldX op)⟩,
   ⟨0xF0FF, 0xF055, fun op => .storeRegs (fieldX op)⟩,
   ⟨0xF0FF, 0xF065, fun op => .loadRegs (fieldX op)⟩]

/-- The complete opcode map, 34 rows in the table's order (R64): what the dispatch of R63 is held against. -/
def opcodeMap : List OpcodeRow := opcodeMapLow ++ opcodeMapAlu ++ opcodeMapMid ++ opcodeMapF

/-- The opcode two consecutive bytes form: the byte at the lower address is bits 15:8 (20_memory R46). -/
def wordOfBytes (first second : Byte) : Word := first ++ second

/-- The byte at the lower address (R46). -/
def firstByte (op : Word) : Byte := op.extractLsb' 8 8

/-- The byte at the higher address (R46). -/
def secondByte (op : Word) : Byte := op.extractLsb' 0 8

/-- Decoding the front of a byte string: the instruction and the bytes after it (R60: always two bytes). -/
def decode : List Byte → Except DecodeError (Instr × List Byte)
  | first :: second :: rest =>
    match decodeWord (wordOfBytes first second) with
    | .ok i => .ok (i, rest)
    | .error e => .error e
  | [_] => .error .truncated
  | [] => .error .truncated

/-- The nibble a register number is encoded as. -/
def regNibble (x : Reg) : Nibble := BitVec.ofFin x

/-- Format ADDR: `fam`, then `nnn` (R61). -/
def wordAddr (fam : Nibble) (nnn : Addr12) : Word := fam ++ nnn

/-- Formats REGIMM and REGOP: `fam`, `x`, then a byte that is `nn` or a sub-opcode (R61). -/
def wordRegByte (fam : Nibble) (x : Reg) (nn : Byte) : Word := fam ++ regNibble x ++ nn

/-- Formats REGREG and DRAW: `fam`, `x`, `y`, then a nibble that is a sub-opcode or `n` (R61). -/
def wordRegReg (fam : Nibble) (x y : Reg) (n : Nibble) : Word := fam ++ regNibble x ++ regNibble y ++ n

/-- The opcode of an instruction, row by row from the map of R64. -/
def encodeWord : Instr → Word
  | .cls => 0x00E0
  | .ret => 0x00EE
  | .jp nnn => wordAddr 0x1 nnn
  | .call nnn => wordAddr 0x2 nnn
  | .seImm x nn => wordRegByte 0x3 x nn
  | .sneImm x nn => wordRegByte 0x4 x nn
  | .seReg x y => wordRegReg 0x5 x y 0x0
  | .ldImm x nn => wordRegByte 0x6 x nn
  | .addImm x nn => wordRegByte 0x7 x nn
  | .ldReg x y => wordRegReg 0x8 x y 0x0
  | .orReg x y => wordRegReg 0x8 x y 0x1
  | .andReg x y => wordRegReg 0x8 x y 0x2
  | .xorReg x y => wordRegReg 0x8 x y 0x3
  | .addReg x y => wordRegReg 0x8 x y 0x4
  | .subReg x y => wordRegReg 0x8 x y 0x5
  | .shr x y => wordRegReg 0x8 x y 0x6
  | .subnReg x y => wordRegReg 0x8 x y 0x7
  | .shl x y => wordRegReg 0x8 x y 0xE
  | .sneReg x y => wordRegReg 0x9 x y 0x0
  | .ldI nnn => wordAddr 0xA nnn
  | .jpV0 nnn => wordAddr 0xB nnn
  | .rnd x nn => wordRegByte 0xC x nn
  | .drw x y n => wordRegReg 0xD x y (BitVec.ofNat 4 n)
  | .skp x => wordRegByte 0xE x 0x9E
  | .sknp x => wordRegByte 0xE x 0xA1
  | .ldVxDt x => wordRegByte 0xF x 0x07
  | .ldVxK x => wordRegByte 0xF x 0x0A
  | .ldDtVx x => wordRegByte 0xF x 0x15
  | .ldStVx x => wordRegByte 0xF x 0x18
  | .addI x => wordRegByte 0xF x 0x1E
  | .ldF x => wordRegByte 0xF x 0x29
  | .ldB x => wordRegByte 0xF x 0x33
  | .storeRegs x => wordRegByte 0xF x 0x55
  | .loadRegs x => wordRegByte 0xF x 0x65

/-- The bytes of an instruction as memory holds them, lowest address first (R46). -/
def encode (i : Instr) : List Byte := [firstByte (encodeWord i), secondByte (encodeWord i)]

/-- What the decoder reads from an instruction whose bits are `w`, numbered as spec/opcode_table.json numbers them: bit 0 is
the least significant bit of the 16-bit opcode. A bit above the row's `nbits` is 0. -/
def decodeTableWord (nbits w : Nat) : Option Instr :=
  let op : Word := BitVec.ofNat 16 (w % 2 ^ nbits)
  match decode [firstByte op, secondByte op] with
  | .ok (i, _) => some i
  | .error _ => none

end Sys2Proof
end

