-- ==== Sys2Proof/Config.lean ====
section
/-! DEFINITION. What is fixed for the machine: the constants of 00_scope R6, the default values of the parameters of
00_scope R7 (the parameters themselves are arguments, carried in the state), and the one free value, `randomByte`. -/

namespace Sys2Proof

/-- The highest address of main memory: 4096 cells, 0x000 to 0xFFF (R6, R41). -/
def Config.memTop : Nat := 0x0FFF

/-- Where `Load` puts the first ROM byte, and the entry point (R6, R42). -/
def Config.loadAddr : Nat := 0x200

/-- The longest ROM: 0x200 to 0xFFF (R42, R233). -/
def Config.loadMax : Nat := 3584

/-- Where `Initialize` puts the font (R6, R42). -/
def Config.fontAddr : Nat := 0x050

/-- 80 bytes: 16 glyphs of 5 (R6). -/
def Config.fontSize : Nat := 80

/-- The parameter `FONT`: 80 bytes, glyph `d` at offset `5*d` (R7, R232). -/
abbrev Font := Vector Byte 80

/-- Glyphs 0 to 7 of the default of `FONT` (R7, R232).
PRESUMED (log entry 3): the bytes are from general knowledge (K3); unsafe for a claim that rests on them. -/
def Config.fontLow : List (List Byte) :=
  [[0xF0, 0x90, 0x90, 0x90, 0xF0], [0x20, 0x60, 0x20, 0x20, 0x70],
   [0xF0, 0x10, 0xF0, 0x80, 0xF0], [0xF0, 0x10, 0xF0, 0x10, 0xF0],
   [0x90, 0x90, 0xF0, 0x10, 0x10], [0xF0, 0x80, 0xF0, 0x10, 0xF0],
   [0xF0, 0x80, 0xF0, 0x90, 0xF0], [0xF0, 0x10, 0x20, 0x40, 0x40]]

/-- Glyphs 8 to F of the default of `FONT` (R232, log entry 3). -/
def Config.fontHigh : List (List Byte) :=
  [[0xF0, 0x90, 0xF0, 0x90, 0xF0], [0xF0, 0x90, 0xF0, 0x10, 0xF0],
   [0xF0, 0x90, 0xF0, 0x90, 0x90], [0xE0, 0x90, 0xE0, 0x90, 0xE0],
   [0xF0, 0x80, 0x80, 0x80, 0xF0], [0xE0, 0x90, 0x90, 0x90, 0xE0],
   [0xF0, 0x80, 0xF0, 0x80, 0xF0], [0xF0, 0x80, 0xF0, 0x80, 0x80]]

/-- The `FONT` of the machine `State.reset` describes: the default of R232. PRESUMED (log entry 3): every other font is reached
through the state's field `font`. -/
def Config.resetFont : Font := ⟨(fontLow ++ fontHigh).flatten.toArray, by decide⟩

/-- The parameter `STACK_DEPTH` of the machine `State.reset` describes: `none` is `unbounded`, the reference behaviour (R7, D9).
DESIGN CHOICE (log entry 2): every other value is reached through the state's field `stackDepth`; unsafe only for a claim that
rests on this value. -/
def Config.resetStackDepth : Option Nat := none

/-- The value of the `k`-th call of `random_byte()` (R5, R134, D21): a FREE VALUE, no body, so nothing proves a value of it.
DESIGN CHOICE (log entry 1): the draws are numbered by the state's field `draws`; safe. -/
opaque Config.randomByte : Nat → Byte

end Sys2Proof
end

