-- ==== Sys2Proof/Machine/State.lean ====
section
/-! DEFINITION. The Machine State (10_state R10: "one aggregate of exactly ten fields"), three fields of the model's own, the ways
an operation can stop, and the state after `Initialize` (70_reset_and_hazards R230, R231). -/

namespace Sys2Proof.Machine

/-- Main memory, R11: the cells that differ from their reset contents, addresses strictly rising (`Memory.wf`, Machine/Ops.lean). -/
abbrev Memory := List Host.Cell

/-- The display, R12: 32 rows, row 0 the top, of 64 pixels, column 0 the left; `true` is on. -/
abbrev Display := Vector (Vector Bool 64) 32

/-- The faults of 60_exceptions R200 and R201, with the information R200 says each carries. Every one is raised before its
operation has written anything, so the state after it is the state before it (R203). -/
inductive Fault where
  /-- Raised by RET (`00EE`) with an empty stack (R204). Safe: the spec's own fault. -/
  | stackUnderflow (pc : Word)
  /-- Raised by CALL (`2nnn`) when STACK_DEPTH is a number and the stack holds that many entries (R205). Safe: the spec's own. -/
  | stackOverflow (pc : Word)
  /-- Raised by `Fx33`, `Fx55`, `Fx65`, `Dxyn` whose address range passes 0x0FFF (R206, R146). Safe: the spec's own fault. -/
  | memOutOfRange (index pc : Word)
  /-- Raised by the Fetch phase of Step when `pc > 0x0FFE` (R207, R81). Safe: the spec's own fault. -/
  | fetchOutOfRange (pc : Word)
  /-- Raised by the host operation Load of more than 3584 bytes (R208, R233). Safe: the spec's own fault. -/
  | loadOverflow (length : Nat)
  deriving DecidableEq, Repr

/-- Refusals. No operation of this model answers one: every word of 16 bits has a meaning (R82, `90_conflicts.md` C4). -/
inductive Refusal where
  /-- An instruction whose meaning is not written; raised by an arm of `exec` alone, and no arm does. Safe. -/
  | notModelled (mnemonic : String)
  deriving DecidableEq, Repr

/-- The Machine State of R10 and, last, three fields of the model's own. -/
structure State where
  /-- `memory` (R11) -/
  mem : Memory
  /-- `display` (R12) -/
  disp : Display
  /-- `program_counter`, 16 bits, never masked to 12 (R13) -/
  pc : Word
  /-- `index_register` I, 16 bits (R15) -/
  index : Word
  /-- `stack`, newest entry last (R22) -/
  stack : List Word
  /-- `variable_register` V0 to VF (R17, R18) -/
  v : Vector Byte 16
  /-- `delay_timer` (R19) -/
  dt : Byte
  /-- `sound_timer` (R19) -/
  st : Byte
  /-- `key_pressed`: `none` is the spec's own "no key currently pressed" (R20) -/
  key : Option Key
  /-- `increment_pc`, the one-shot advance flag (R21) -/
  incPc : Bool
  /-- THE MODEL'S OWN: how many random bytes have been drawn; numbers the calls of `Config.randomByte` (log entry 1) -/
  draws : Nat
  /-- THE MODEL'S OWN: the implementation parameter STACK_DEPTH, `none` for unbounded; no operation writes it (R7, R23, log
  entry 2) -/
  stackDepth : Option Nat
  /-- THE MODEL'S OWN: the implementation parameter FONT, which `Initialize` copies to 0x050; no operation writes it (R7, R25, R232,
  log entry 3) -/
  font : Font
  deriving DecidableEq, Repr

/-- A display with every pixel off. -/
def Display.clear : Display := Vector.replicate 32 (Vector.replicate 64 false)

/-- The state after `Initialize` (R230, R231), the parameters FONT and STACK_DEPTH as arguments (R7, R25). Memory lists nothing: an
unlisted cell reads as its reset contents (`Memory.unlisted`). `draws` is a DESIGN CHOICE (log entry 1). -/
def State.resetWith (font : Font) (depth : Option Nat) : State where
  mem := []
  disp := Display.clear
  pc := 0x0200
  index := 0x0000
  stack := []
  v := Vector.replicate 16 0x00
  dt := 0x00
  st := 0x00
  key := none
  incPc := true
  draws := 0
  stackDepth := depth
  font := font

/-- The state after `Initialize` with the parameters at their defaults: a DESIGN CHOICE for STACK_DEPTH (log entry 2), PRESUMED for
FONT (log entry 3). -/
def State.reset : State := State.resetWith Config.resetFont Config.resetStackDepth

end Sys2Proof.Machine
end

