-- ==== Sys2Proof/Machine/Ops.lean ====
section
/-! DEFINITION. The named operations over state: memory, display, registers, stack, and the parts of a Step that all
instructions share (00_scope R8; 10_state R22; 20_memory R47; 40_step_cycle R81, R83, R87; 60_exceptions R203). -/

namespace Sys2Proof.Machine

/-- What an operation of the unit answers. -/
abbrev Result := Host.Outcome State Fault Refusal

/-! ### Memory -/

/-- What an unlisted address reads as: the reset contents, `FONT[i]` at `0x050 + i` and 0 everywhere else (R11, R42, R230). -/
def Memory.unlisted (f : Font) (a : Nat) : Byte :=
  if Config.fontAddr ≤ a ∧ a < Config.fontAddr + Config.fontSize then f[a - Config.fontAddr]?.getD 0 else 0

/-- The cell at `a`. Whoever reads checks the range first (`checkRange`, `fetch`), so only addresses to 0x0FFF are looked at. -/
def Memory.read (f : Font) : Memory → Nat → Byte
  | [], a => Memory.unlisted f a
  | (k, w) :: m, a => if a = k then w else Memory.read f m a

/-- Write one cell, keeping the canonical form: a value equal to the reset contents of the cell is not listed. -/
def Memory.write (f : Font) : Memory → Nat → Byte → Memory
  | [], a, b => if b = Memory.unlisted f a then [] else [(a, b)]
  | (k, w) :: m, a, b =>
    if a < k then (if b = Memory.unlisted f a then (k, w) :: m else (a, b) :: (k, w) :: m)
    else if a = k then (if b = Memory.unlisted f a then m else (a, b) :: m)
    else (k, w) :: Memory.write f m a b

/-- Write consecutive cells, the first byte at the lowest address (R46). -/
def Memory.writeAll (f : Font) : Memory → Nat → List Byte → Memory
  | m, _, [] => m
  | m, a, b :: bs => Memory.writeAll f (Memory.write f m a b) (a + 1) bs

/-- The canonical form from address `lo` on: addresses rising and in range, no cell at its reset contents. -/
def Memory.wfFrom (f : Font) : Nat → Memory → Bool
  | _, [] => true
  | lo, (k, w) :: m =>
    decide (lo ≤ k) && decide (k ≤ Config.memTop) && (w != Memory.unlisted f k) && Memory.wfFrom f (k + 1) m

/-- The canonical form of a memory. -/
def Memory.wf (f : Font) (m : Memory) : Bool := Memory.wfFrom f 0 m

/-! ### Display -/

/-- `disp[r][c]` (R12). -/
def Display.pixel (d : Display) (r : Fin 32) (c : Fin 64) : Bool := d[r.val][c.val]

/-- `disp[r][c] <- b`. -/
def Display.setPixel (d : Display) (r : Fin 32) (c : Fin 64) (b : Bool) : Display :=
  d.set r.val (d[r.val].set c.val b)

/-! ### Named updates of the state -/

def State.setMem (s : State) (m : Memory) : State := { s with mem := m }
def State.setDisp (s : State) (d : Display) : State := { s with disp := d }
def State.setPc (s : State) (w : Word) : State := { s with pc := w }
def State.setIndex (s : State) (w : Word) : State := { s with index := w }
def State.setStack (s : State) (l : List Word) : State := { s with stack := l }
def State.setRegs (s : State) (v : Vector Byte 16) : State := { s with v := v }
def State.setDt (s : State) (b : Byte) : State := { s with dt := b }
def State.setSt (s : State) (b : Byte) : State := { s with st := b }
def State.setKey (s : State) (k : Option Key) : State := { s with key := k }
def State.setIncPc (s : State) (b : Bool) : State := { s with incPc := b }
def State.setDraws (s : State) (n : Nat) : State := { s with draws := n }

/-- `mem[a]`: `MemRead(a, 1)` (R8). -/
def State.byteAt (s : State) (a : Nat) : Byte := Memory.read s.font s.mem a

/-- `{mem[a], mem[a+1]}`: `MemRead(a, 2)` (R8, R46). -/
def State.wordAt (s : State) (a : Nat) : Word := wordOfBytes (s.byteAt a) (s.byteAt (a + 1))

/-- `MemWrite(a + k, 1, bs[k])` for every `k`, lowest first (R8). -/
def State.storeBytes (s : State) (a : Nat) (bs : List Byte) : State := s.setMem (Memory.writeAll s.font s.mem a bs)

/-- The memory of the state has its canonical form. -/
def State.memWf (s : State) : Bool := Memory.wf s.font s.mem

/-- `V[x]` (R8, R17). -/
def State.getV (s : State) (x : Reg) : Byte := s.v[x.val]

/-- `V[x] <- b` (R8, R17): no register is hardwired. -/
def State.setV (s : State) (x : Reg) (b : Byte) : State := s.setRegs (s.v.set x.val b)

/-- VF is `V[15]` (R18). -/
def vf : Reg := 15

/-! ### Faults -/

/-- `raise` (R8, R203, R213): the one way an operation takes an exception. The operation ends with the named fault; nothing is
saved, no mode changes, control goes nowhere inside the machine, and the state stays what it was (`stateAfter`). There is no
return from it to model (R214). -/
def raise (f : Fault) : Result := .fault f

/-- The state the host finds after an operation on `s` answered `o`: after a fault exactly `s` (R203). -/
def stateAfter (s : State) (o : Result) : State :=
  match o with
  | .next t => t
  | .fault _ => s
  | .refused _ => s

/-- Go on with `k` from the next state; a fault or a refusal ends the operation (R80, R203). -/
def andThen (o : Result) (k : State → Result) : Result :=
  match o with
  | .next t => k t
  | .fault f => .fault f
  | .refused r => .refused r

/-- The range check of R146 and R164, made before anything is written: `len` cells from address `first`, a natural number that
is never wrapped (R47). No cell, no check (R163). -/
def checkRange (first len : Nat) (f : Fault) (k : Result) : Result :=
  if 0 < len ∧ Config.memTop < first + len - 1 then raise f else k

/-! ### Stack (R22) -/

/-- `push(v)` in the name of the instruction at `pc` (R22, R205). -/
def push (w : Word) (s : State) : Result :=
  if s.stackDepth = some s.stack.length then raise (.stackOverflow s.pc)
  else .next (s.setStack (s.stack ++ [w]))

/-- `pc <- pop()` (R22, R100, R204): the newest entry is the last. -/
def popPc (s : State) : Result :=
  match s.stack.getLast? with
  | none => raise (.stackUnderflow s.pc)
  | some e => .next ((s.setStack s.stack.dropLast).setPc e)

/-! ### Program counter -/

/-- Set `pc` and suppress the Advance (R21, R101). -/
def jumpTo (target : Word) (s : State) : State := (s.setPc target).setIncPc false

/-- Skip (R87): add 2 in Execute when `taken`, modulo 2^16; `inc_pc` is left alone. -/
def skipIf (taken : Bool) (s : State) : State := if taken then s.setPc (s.pc + 2) else s

/-- Fetch (R81): no alignment check (R48), big-endian, a fault when `pc > 0x0FFE`. -/
def fetch (s : State) : Except Fault Word :=
  if 0x0FFE < s.pc.toNat then .error (.fetchOutOfRange s.pc) else .ok (s.wordAt s.pc.toNat)

/-- Advance (R83). -/
def advance (s : State) : State := (if s.incPc then s.setPc (s.pc + 2) else s).setIncPc true

/-- Execute of a word that selects no instruction (R86): no write at all; the report is `stepReport`'s (Machine/Status.lean). -/
def execUnknown (s : State) : Result := .next s

/-- Lay the 16-bit opcode `op` at `pc`, high byte first, where the next Fetch reads it. Where `pc` is past the last address a
Fetch can read, the entry point 0x200 takes its place (log entry 4). -/
def placeAtPc (s : State) (op : Word) : State :=
  let s := if 0x0FFE < s.pc.toNat then s.setPc 0x0200 else s
  s.storeBytes s.pc.toNat [firstByte op, secondByte op]

end Sys2Proof.Machine
end

