-- ==== Sys2Proof/Machine/Flags.lean ====
section
/-! DEFINITION. The flag computations: VF is the machine's only flag (10_state R18), always 0x00 or 0x01, and its write is the
last of an instruction (40_step_cycle R85). -/

namespace Sys2Proof.Machine

/-- A flag as VF holds it (R18). -/
def flagByte (b : Bool) : Byte := if b then 0x01 else 0x00

/-- 1 iff `a + b > 255` (R126, R131). -/
def carryOf (a b : Byte) : Byte := flagByte (decide (255 < a.toNat + b.toNat))

/-- 1 iff `a - b` does not borrow, `a >= b` (R127, R131). -/
def noBorrowOf (a b : Byte) : Byte := flagByte (decide (b.toNat ≤ a.toNat))

/-- The bit a right shift drops (R128). -/
def lowBitOf (a : Byte) : Byte := a &&& 0x01

/-- The bit a left shift drops (R130). -/
def highBitOf (a : Byte) : Byte := a >>> 7

/-- The index sum exceeds 0x1000, strictly (R141). -/
def indexOverflows (sum : Nat) : Bool := decide (0x1000 < sum)

/-- `V[x] <- result`, then `V[15] <- flag`, last: with x = 15 the result is lost (R85, R132). -/
def setResultFlag (s : State) (x : Reg) (result flag : Byte) : State := (s.setV x result).setV vf flag

end Sys2Proof.Machine
end

