-- ==== Sys2Proof/Machine/Operands.lean ====
section
/-! DEFINITION. The operand forms (30_encoding R62, 43_index_memory): immediates, the register block V0 to Vx, the data address
`I + k`, decimal digits, sprite bits and pixel coordinates, the pressed key, the random draw. -/

namespace Sys2Proof.Machine

/-- `zext_16(nnn)` (R62). -/
def addrWord (nnn : Addr12) : Word := nnn.setWidth 16

/-- `zext_16` of a register value (R107, R142). -/
def byteWord (b : Byte) : Word := b.setWidth 16

/-- The effective address `I + k`, a natural number, not truncated, not wrapped (43_index_memory, R47). -/
def dataAddr (s : State) (k : Nat) : Nat := s.index.toNat + k

/-- The number of registers, and of cells, a block move with field `x` touches: `x + 1` (R144, R145). -/
def blockLen (x : Reg) : Nat := x.val + 1

/-- `V[0]` to `V[x]`, lowest first (R144). -/
def blockOf (s : State) (x : Reg) : List Byte := s.v.toList.take (blockLen x)

/-- The registers after `V[k] <- mem[I + k]` for k in 0..x (R145). -/
def blockFrom (s : State) (x : Reg) : Vector Byte 16 :=
  Vector.ofFn fun k => if k ≤ x then s.byteAt (dataAddr s k.val) else s.getV k

/-- The hundreds digit (R143). -/
def hundredsOf (a : Byte) : Byte := BitVec.ofNat 8 (a.toNat / 100)

/-- The tens digit (R143). -/
def tensOf (a : Byte) : Byte := BitVec.ofNat 8 ((a.toNat / 10) % 10)

/-- The ones digit (R143). -/
def onesOf (a : Byte) : Byte := BitVec.ofNat 8 (a.toNat % 10)

/-- `5 * Vx`, not masked, no font base (R142, D15). -/
def digitAddr (a : Byte) : Word := 5 * byteWord a

/-- Whether the key test "`key_pressed == Vx`" holds: on the whole byte, and never when no key is pressed (R176, D10). -/
def keyIs (s : State) (x : Reg) : Bool :=
  match s.key with
  | none => false
  | some k => k.setWidth 8 == s.getV x

/-- The next random byte, a free value (R134, log entry 1). -/
def drawByte (s : State) : Byte := Config.randomByte s.draws

/-- Sprite row `row`: `MemRead(I + row, 1)` (R161). -/
def spriteRow (s : State) (row : Nat) : Byte := s.byteAt (dataAddr s row)

/-- Bit `bit` of a sprite row counted from the left: `byte[7-bit]` (R161). -/
def spriteBit (byte : Byte) (bit : Nat) : Bool := byte.getLsbD (7 - bit)

/-- The display row of sprite row `row`: `(py + row) mod 32` (R161). -/
def pixelRow (py row : Nat) : Fin 32 := ⟨(py + row) % 32, Nat.mod_lt _ (by decide)⟩

/-- The display column of sprite bit `bit`: `(px + bit) mod 64` (R161). -/
def pixelCol (px bit : Nat) : Fin 64 := ⟨(px + bit) % 64, Nat.mod_lt _ (by decide)⟩

end Sys2Proof.Machine
end

