-- ==== Sys2Proof/Machine/Alu.lean ====
section
/-! DEFINITION. Load, arithmetic, logic, shift and random instructions, the Execute phase (42_alu R120 to R134). Sums,
differences and shifts of bytes are modulo 256 (R131); operands are read before any write (40_step_cycle R85). -/

namespace Sys2Proof.Machine

/-- LD Vx, nn (R120). -/
def execLdImm (x : Reg) (nn : Byte) (s : State) : Result := .next (s.setV x nn)

/-- ADD Vx, nn (R121): no flag. -/
def execAddImm (x : Reg) (nn : Byte) (s : State) : Result := .next (s.setV x (s.getV x + nn))

/-- LD Vx, Vy (R122). -/
def execLdReg (x y : Reg) (s : State) : Result := .next (s.setV x (s.getV y))

/-- OR Vx, Vy (R123): VF is not written (D16). -/
def execOrReg (x y : Reg) (s : State) : Result := .next (s.setV x (s.getV x ||| s.getV y))

/-- AND Vx, Vy (R124): VF is not written (D16). -/
def execAndReg (x y : Reg) (s : State) : Result := .next (s.setV x (s.getV x &&& s.getV y))

/-- XOR Vx, Vy (R125): VF is not written (D16). -/
def execXorReg (x y : Reg) (s : State) : Result := .next (s.setV x (s.getV x ^^^ s.getV y))

/-- ADD Vx, Vy (R126). -/
def execAddReg (x y : Reg) (s : State) : Result :=
  .next (setResultFlag s x (s.getV x + s.getV y) (carryOf (s.getV x) (s.getV y)))

/-- SUB Vx, Vy (R127). -/
def execSubReg (x y : Reg) (s : State) : Result :=
  .next (setResultFlag s x (s.getV x - s.getV y) (noBorrowOf (s.getV x) (s.getV y)))

/-- SHR Vx (R128): `V[y]` plays no part. -/
def execShr (x : Reg) (s : State) : Result := .next (setResultFlag s x (s.getV x >>> 1) (lowBitOf (s.getV x)))

/-- SUBN Vx, Vy (R129). -/
def execSubnReg (x y : Reg) (s : State) : Result :=
  .next (setResultFlag s x (s.getV y - s.getV x) (noBorrowOf (s.getV y) (s.getV x)))

/-- SHL Vx (R130): `V[y]` plays no part. -/
def execShl (x : Reg) (s : State) : Result := .next (setResultFlag s x (s.getV x <<< 1) (highBitOf (s.getV x)))

/-- RND Vx, nn (R134): the byte is a free value, a new one at each execution (log entry 1). -/
def execRnd (x : Reg) (nn : Byte) (s : State) : Result := .next ((s.setV x (drawByte s &&& nn)).setDraws (s.draws + 1))

end Sys2Proof.Machine
end

