-- ==== Sys2Proof/Machine/ControlFlow.lean ====
section
/-! DEFINITION. Control transfer instructions, the Execute phase (41_control_flow R100 to R108). `pc` is the address of the
instruction itself (40_step_cycle R88). -/

namespace Sys2Proof.Machine

/-- RET (R100): `inc_pc` is not written, so the Step lands at the popped entry plus 2 (`90_conflicts.md` C1). -/
def execRet (s : State) : Result := popPc s

/-- JP nnn (R101). -/
def execJp (nnn : Addr12) (s : State) : Result := .next (jumpTo (addrWord nnn) s)

/-- CALL nnn (R102): pushes the address of the CALL itself (`90_conflicts.md` C7). -/
def execCall (nnn : Addr12) (s : State) : Result := andThen (push s.pc s) fun t => .next (jumpTo (addrWord nnn) t)

/-- SE Vx, nn (R103). -/
def execSeImm (x : Reg) (nn : Byte) (s : State) : Result := .next (skipIf (s.getV x == nn) s)

/-- SNE Vx, nn (R104). -/
def execSneImm (x : Reg) (nn : Byte) (s : State) : Result := .next (skipIf (s.getV x != nn) s)

/-- SE Vx, Vy (R105). -/
def execSeReg (x y : Reg) (s : State) : Result := .next (skipIf (s.getV x == s.getV y) s)

/-- SNE Vx, Vy (R106). -/
def execSneReg (x y : Reg) (s : State) : Result := .next (skipIf (s.getV x != s.getV y) s)

/-- JP V0, nnn (R107, D4): the sum is not reduced to 12 bits. -/
def execJpV0 (nnn : Addr12) (s : State) : Result := .next (jumpTo (addrWord nnn + byteWord (s.getV 0)) s)

end Sys2Proof.Machine
end

