-- ==== Sys2Proof/Machine/Display.lean ====
section
/-! DEFINITION. Display instructions, the Execute phase (44_display R160 to R164). -/

namespace Sys2Proof.Machine

/-- CLS (R160). -/
def execCls (s : State) : Result := .next (s.setDisp Display.clear)

/-- A set sprite bit meets one pixel: on goes off and is a collision, off goes on (R161). The second part is the collision seen
so far, never cleared again. -/
def xorPixel (p : Display × Bool) (r : Fin 32) (c : Fin 64) : Display × Bool :=
  if Display.pixel p.1 r c then (Display.setPixel p.1 r c false, true) else (Display.setPixel p.1 r c true, p.2)

/-- One sprite row, its eight bits from the left; a clear bit never modifies the pixel (R161). -/
def drawRow (byte : Byte) (px : Nat) (r : Fin 32) (p : Display × Bool) : Display × Bool :=
  (List.range 8).foldl (fun p bit => if spriteBit byte bit then xorPixel p r (pixelCol px bit) else p) p

/-- The `n` rows of a sprite whose row `k` is the byte `rows k` (R161). -/
def drawSprite (rows : Nat → Byte) (px py n : Nat) (p : Display × Bool) : Display × Bool :=
  (List.range n).foldl (fun p row => drawRow (rows row) px (pixelRow py row) p) p

/-- DRW Vx, Vy, n (R161): position first, then the range check, then VF and the pixels (R164, D18); n = 0 draws nothing and
clears VF (R163). -/
def execDrw (x y : Reg) (n : Nat) (s : State) : Result :=
  checkRange (dataAddr s 0) n (.memOutOfRange s.index s.pc)
    (let p := drawSprite (spriteRow s) ((s.getV x).toNat % 64) ((s.getV y).toNat % 32) n (s.disp, false)
     .next ((s.setDisp p.1).setV vf (flagByte p.2)))

end Sys2Proof.Machine
end

