-- ==== Sys2Proof/Machine/IndexMemory.lean ====
section
/-! DEFINITION. Index register and memory instructions, the Execute phase (43_index_memory R140 to R146). The whole range is
checked before anything is written, and none of the three memory instructions writes `I` (R146, D14). -/

namespace Sys2Proof.Machine

/-- LD I, nnn (R140). -/
def execLdI (nnn : Addr12) (s : State) : Result := .next (s.setIndex (addrWord nnn))

/-- ADD I, Vx (R141): a sum above 0x1000 sets VF and clears `I`; otherwise VF is not written (D13). -/
def execAddI (x : Reg) (s : State) : Result :=
  let sum := s.index.toNat + (s.getV x).toNat
  if indexOverflows sum then .next ((s.setIndex 0x0000).setV vf (flagByte true))
  else .next (s.setIndex (BitVec.ofNat 16 sum))

/-- LD F, Vx (R142, D15). -/
def execLdF (x : Reg) (s : State) : Result := .next (s.setIndex (digitAddr (s.getV x)))

/-- LD B, Vx (R143). -/
def execLdB (x : Reg) (s : State) : Result :=
  let a := s.getV x
  checkRange (dataAddr s 0) 3 (.memOutOfRange s.index s.pc)
    (.next (s.storeBytes (dataAddr s 0) [hundredsOf a, tensOf a, onesOf a]))

/-- LD [I], Vx (R144): `x` is a count here, not a register read. -/
def execStoreRegs (x : Reg) (s : State) : Result :=
  checkRange (dataAddr s 0) (blockLen x) (.memOutOfRange s.index s.pc)
    (.next (s.storeBytes (dataAddr s 0) (blockOf s x)))

/-- LD Vx, [I] (R145). -/
def execLoadRegs (x : Reg) (s : State) : Result :=
  checkRange (dataAddr s 0) (blockLen x) (.memOutOfRange s.index s.pc) (.next (s.setRegs (blockFrom s x)))

end Sys2Proof.Machine
end

