-- ==== Sys2Proof/Machine/KeypadTimers.lean ====
section
/-! DEFINITION. Keypad and timer instructions, the Execute phase (45_keypad_timers R170 to R176). None writes `key` (D27). -/

namespace Sys2Proof.Machine

/-- SKP Vx (R170). -/
def execSkp (x : Reg) (s : State) : Result := .next (skipIf (keyIs s x) s)

/-- SKNP Vx (R171). -/
def execSknp (x : Reg) (s : State) : Result := .next (skipIf (!keyIs s x) s)

/-- LD Vx, K (R172): with no key pressed the Advance is suppressed, so the same word is fetched again (D3, `90_conflicts.md` C2);
the report is `execReport`'s (Machine/Status.lean). -/
def execLdVxK (x : Reg) (s : State) : Result :=
  match s.key with
  | none => .next (s.setIncPc false)
  | some k => .next (s.setV x (k.setWidth 8))

/-- LD Vx, DT (R173). -/
def execLdVxDt (x : Reg) (s : State) : Result := .next (s.setV x s.dt)

/-- LD DT, Vx (R174). -/
def execLdDtVx (x : Reg) (s : State) : Result := .next (s.setDt (s.getV x))

/-- LD ST, Vx (R175). -/
def execLdStVx (x : Reg) (s : State) : Result := .next (s.setSt (s.getV x))

end Sys2Proof.Machine
end

