-- ==== Sys2Proof/Machine/Step.lean ====
section
/-! DEFINITION. The Step operation: Fetch, Execute, Advance as one transition (40_step_cycle R80, R84), and how the host places
an instruction where the next Step fetches it. -/

namespace Sys2Proof.Machine

/-- Execute of an opcode word (R82): decode, then the instruction's rule, or the no-op of R86 for a word that selects none. -/
def execute (op : Word) (s : State) : Host.Outcome State Fault Refusal :=
  match decodeWord op with
  | .ok i => exec i s
  | .error _ => execUnknown s

/-- `Step()` (R80). A fault of Fetch or Execute ends it: nothing written, no Advance (R203). -/
def step (s : State) : Host.Outcome State Fault Refusal :=
  match fetch s with
  | .error f => raise f
  | .ok op => andThen (execute op s) fun t => .next (advance t)

/-- `s` with the instruction whose bits are `w`, numbered as spec/opcode_table.json numbers them, at `pc`, so that the next Step
fetches and runs it. Stands for a `Load` from outside (log entry 4). -/
def State.withFetchWord (s : State) (nbits w : Nat) : State := placeAtPc s (BitVec.ofNat 16 (w % 2 ^ nbits))

end Sys2Proof.Machine
end

