-- ==== Sys2Proof/Machine/Operations.lean ====
section
/-! DEFINITION. The seven operations of the unit (00_scope R4), any of which the host may invoke between two Steps, in any order
and any number (45_keypad_timers R179, 20_memory R53). `step` is the Step operation; the others are here. -/

namespace Sys2Proof.Machine

/-- The operations of R4 with the arguments the host gives them. -/
inductive Operation where
  /-- `Initialize()` (R230) -/
  | reinit
  /-- `Load(bytes)` (R233) -/
  | load (bytes : List Byte)
  /-- `Step()` (R80) -/
  | step
  /-- `Tick()` (R178) -/
  | tick
  /-- `SetKey(v)`: only `none` and the sixteen codes can be said (R177, D34) -/
  | pressKey (k : Option Key)
  /-- `ReadDisplay()` (R219) -/
  | readDisplay
  /-- `ReadState()` (R4) -/
  | readState
  deriving DecidableEq, Repr

/-- `Initialize()` (R230): every field of Machine State to its reset value, from any state. The random source is no part of
Machine State (R134), so its draws go on; FONT and STACK_DEPTH are parameters and stay (log entries 1 to 3). -/
def doReinit (s : State) : Result := .next { State.resetWith s.font s.stackDepth with draws := s.draws }

/-- `Load(bytes)` (R233): all or nothing, memory only, nothing cleared beyond the image (D26). -/
def doLoad (bytes : List Byte) (s : State) : Result :=
  if Config.loadMax < bytes.length then raise (.loadOverflow bytes.length)
  else .next (s.storeBytes Config.loadAddr bytes)

/-- One decrement with a floor of 0 (R19, R178). -/
def countDown (b : Byte) : Byte := if 0 < b.toNat then b - 1 else b

/-- `Tick()` (R178): both timers, independently. -/
def doTick (s : State) : Result := .next ((s.setDt (countDown s.dt)).setSt (countDown s.st))

/-- `SetKey(v)` (R177). -/
def doPressKey (k : Option Key) (s : State) : Result := .next (s.setKey k)

/-- What `ReadDisplay()` returns: 2048 pixels, row 0 first, column 0 first (R219). -/
def displayPixels (s : State) : List Bool := (s.disp.toList.map Vector.toList).flatten

/-- What `ReadState()` returns (R4, D1): the state; its last three fields are the model's own and no part of the spec's view. -/
def stateView (s : State) : State := s

/-- One operation of the host's schedule. The two reads change nothing (R4, R219). -/
def perform (op : Operation) (s : State) : Result :=
  match op with
  | .reinit => doReinit s
  | .load bytes => doLoad bytes s
  | .step => step s
  | .tick => doTick s
  | .pressKey k => doPressKey k s
  | .readDisplay => .next s
  | .readState => .next s

/-- The state after an operation, a faulted one included: then the state is unchanged and the host may go on (R203, R214). -/
def after (op : Operation) (s : State) : State := stateAfter s (perform op s)

/-- A schedule: operations one after another, in a single total order (R50). -/
def runAll : List Operation → State → State
  | [], s => s
  | op :: ops, s => runAll ops (after op s)

end Sys2Proof.Machine
end

