-- ==== Sys2Proof/Machine/Status.lean ====
section
/-! DEFINITION. The status each operation returns (60_exceptions R200 to R211, 40_step_cycle R89). A status is an output and is
not stored in Machine State (R89), so it is computed from the state the operation starts in (log entry 7). -/

namespace Sys2Proof.Machine

/-- The closed set of R200, with the information each carries. -/
inductive Status where
  | ok
  | keyWait
  | unknownOpcode (op pc : Word)
  | stackUnderflow (pc : Word)
  | stackOverflow (pc : Word)
  | memOutOfRange (index pc : Word)
  | fetchOutOfRange (pc : Word)
  | loadOverflow (length : Nat)
  deriving DecidableEq, Repr

/-- The three classes of R200. -/
inductive StatusClass where
  | success
  | report
  | fault
  deriving DecidableEq, Repr

/-- The code of R200; a label of the spec's, the source gives none (D19). -/
def Status.code : Status → Byte
  | .ok => 0x00
  | .keyWait => 0x01
  | .unknownOpcode _ _ => 0x02
  | .stackUnderflow _ => 0x10
  | .stackOverflow _ => 0x11
  | .memOutOfRange _ _ => 0x12
  | .fetchOutOfRange _ => 0x13
  | .loadOverflow _ => 0x20

/-- The class of R200. -/
def Status.cls : Status → StatusClass
  | .ok => .success
  | .keyWait => .report
  | .unknownOpcode _ _ => .report
  | .stackUnderflow _ => .fault
  | .stackOverflow _ => .fault
  | .memOutOfRange _ _ => .fault
  | .fetchOutOfRange _ => .fault
  | .loadOverflow _ => .fault

/-- The status a fault is returned as (R8: one to one). -/
def Fault.status : Fault → Status
  | .stackUnderflow pc => .stackUnderflow pc
  | .stackOverflow pc => .stackOverflow pc
  | .memOutOfRange index pc => .memOutOfRange index pc
  | .fetchOutOfRange pc => .fetchOutOfRange pc
  | .loadOverflow length => .loadOverflow length

/-- What Execute of an instruction reports when it does not fault: KEY_WAIT for LD Vx, K with no key pressed and for nothing
else (R172, R210, R211). -/
def execReport (i : Instr) (s : State) : Status :=
  match i, s.key with
  | .ldVxK _, none => .keyWait
  | _, _ => .ok

/-- What a Step that does not fault reports: UNKNOWN_OPCODE with the word and its address (R86, R209), or its instruction's. -/
def stepReport (s : State) : Status :=
  match fetch s with
  | .error f => Fault.status f
  | .ok op =>
    match decodeWord op with
    | .ok i => execReport i s
    | .error _ => .unknownOpcode op s.pc

/-- What an operation that does not fault reports: only Step has reports (R200). -/
def reportOf (op : Operation) (s : State) : Status :=
  match op with
  | .step => stepReport s
  | .reinit => .ok
  | .load _ => .ok
  | .tick => .ok
  | .pressKey _ => .ok
  | .readDisplay => .ok
  | .readState => .ok

/-- The status of an operation on `s` (R200, R89); `none` for a refusal, which no operation of this model answers. -/
def statusOf (op : Operation) (s : State) : Option Status :=
  match perform op s with
  | .next _ => some (reportOf op s)
  | .fault f => some (Fault.status f)
  | .refused _ => none

end Sys2Proof.Machine
end

