-- ==== Sys2Proof/Safety.lean ====
section
/-! DEFINITION. The terms claims are stated in: which parts of the state an operation leaves alone, the invariant of the
machine, and when a run is at rest. -/

namespace Sys2Proof

open Machine

/-- The parts of the state: memory by the cell, display by the pixel, registers one by one. -/
inductive Part where
  | cell (a : Nat)
  | pixel (r : Fin 32) (c : Fin 64)
  | reg (x : Reg)
  | pc
  | index
  | stack
  | dt
  | st
  | key
  | incPc
  | draws
  | stackDepth
  | font
  deriving DecidableEq, Repr

/-- The part holds in `t` what it held in `s`; a cell is compared through `State.byteAt`, for every address. -/
def Part.same : Part → State → State → Prop
  | .cell a, s, t => t.byteAt a = s.byteAt a
  | .pixel r c, s, t => Display.pixel t.disp r c = Display.pixel s.disp r c
  | .reg x, s, t => t.getV x = s.getV x
  | .pc, s, t => t.pc = s.pc
  | .index, s, t => t.index = s.index
  | .stack, s, t => t.stack = s.stack
  | .dt, s, t => t.dt = s.dt
  | .st, s, t => t.st = s.st
  | .key, s, t => t.key = s.key
  | .incPc, s, t => t.incPc = s.incPc
  | .draws, s, t => t.draws = s.draws
  | .stackDepth, s, t => t.stackDepth = s.stackDepth
  | .font, s, t => t.font = s.font

/-- The frame: every part of the state but those in `changed` is the same after as before. -/
def UnchangedBut (changed : Part → Prop) (s t : State) : Prop := ∀ p : Part, ¬ changed p → p.same s t

/-- What each instruction may write in Execute: the "w" and "w?" entries of the summary table R26. `s` is the state it starts in
and gives the addresses a store goes to. RND also draws a random byte, which the model counts. -/
def writesOf (i : Instr) (s : State) (p : Part) : Prop :=
  match i with
  | .cls => ∃ r c, p = .pixel r c
  | .ret => p = .pc ∨ p = .stack
  | .jp _ => p = .pc ∨ p = .incPc
  | .call _ => p = .pc ∨ p = .incPc ∨ p = .stack
  | .seImm _ _ => p = .pc
  | .sneImm _ _ => p = .pc
  | .seReg _ _ => p = .pc
  | .sneReg _ _ => p = .pc
  | .ldImm x _ => p = .reg x
  | .addImm x _ => p = .reg x
  | .ldReg x _ => p = .reg x
  | .orReg x _ => p = .reg x
  | .andReg x _ => p = .reg x
  | .xorReg x _ => p = .reg x
  | .addReg x _ => p = .reg x ∨ p = .reg vf
  | .subReg x _ => p = .reg x ∨ p = .reg vf
  | .shr x _ => p = .reg x ∨ p = .reg vf
  | .subnReg x _ => p = .reg x ∨ p = .reg vf
  | .shl x _ => p = .reg x ∨ p = .reg vf
  | .ldI _ => p = .index
  | .jpV0 _ => p = .pc ∨ p = .incPc
  | .rnd x _ => p = .reg x ∨ p = .draws
  | .drw _ _ _ => p = .reg vf ∨ ∃ r c, p = .pixel r c
  | .skp _ => p = .pc
  | .sknp _ => p = .pc
  | .ldVxDt x => p = .reg x
  | .ldVxK x => (s.key = none ∧ p = .incPc) ∨ (s.key ≠ none ∧ p = .reg x)
  | .ldDtVx _ => p = .dt
  | .ldStVx _ => p = .st
  | .addI _ => p = .index ∨ p = .reg vf
  | .ldF _ => p = .index
  | .ldB _ => ∃ k, k < 3 ∧ p = .cell (dataAddr s k)
  | .storeRegs x => ∃ k, k ≤ x.val ∧ p = .cell (dataAddr s k)
  | .loadRegs x => ∃ k : Reg, k ≤ x ∧ p = .reg k

/-- The one fault each instruction can raise, and when: R204, R205, R206; every other instruction has none (R201, R211). -/
def faultOf (i : Instr) (s : State) : Option Fault :=
  match i with
  | .ret => if s.stack = [] then some (.stackUnderflow s.pc) else none
  | .call _ => if s.stackDepth = some s.stack.length then some (.stackOverflow s.pc) else none
  | .ldB _ => if 0x0FFF < s.index.toNat + 2 then some (.memOutOfRange s.index s.pc) else none
  | .storeRegs x => if 0x0FFF < s.index.toNat + x.val then some (.memOutOfRange s.index s.pc) else none
  | .loadRegs x => if 0x0FFF < s.index.toNat + x.val then some (.memOutOfRange s.index s.pc) else none
  | .drw _ _ n => if 0 < n ∧ 0x0FFF < s.index.toNat + n - 1 then some (.memOutOfRange s.index s.pc) else none
  | .cls | .jp _ | .seImm _ _ | .sneImm _ _ | .seReg _ _ | .sneReg _ _ | .jpV0 _ => none
  | .ldImm _ _ | .addImm _ _ | .ldReg _ _ | .orReg _ _ | .andReg _ _ | .xorReg _ _ | .rnd _ _ => none
  | .addReg _ _ | .subReg _ _ | .shr _ _ | .subnReg _ _ | .shl _ _ => none
  | .ldI _ | .addI _ | .ldF _ => none
  | .skp _ | .sknp _ | .ldVxDt _ | .ldVxK _ | .ldDtVx _ | .ldStVx _ => none

/-- The instructions that clear `inc_pc` in Execute: JP, CALL, JP V0, and LD Vx, K when no key is pressed (R21). -/
def suppresses (i : Instr) (s : State) : Bool :=
  match i with
  | .jp _ | .call _ | .jpV0 _ => true
  | .ldVxK _ => s.key.isNone
  | .cls | .ret | .seImm _ _ | .sneImm _ _ | .seReg _ _ | .sneReg _ _ => false
  | .ldImm _ _ | .addImm _ _ | .ldReg _ _ | .orReg _ _ | .andReg _ _ | .xorReg _ _ | .rnd _ _ => false
  | .addReg _ _ | .subReg _ _ | .shr _ _ | .subnReg _ _ | .shl _ _ => false
  | .ldI _ | .addI _ | .ldF _ | .ldB _ | .storeRegs _ | .loadRegs _ | .drw _ _ _ => false
  | .skp _ | .sknp _ | .ldVxDt _ | .ldDtVx _ | .ldStVx _ => false

/-- The set S of R162: a set bit of the sprite DRW Vx, Vy, n draws from `s` lies on the pixel. -/
def spriteCovers (s : State) (x y : Reg) (n : Nat) (r : Fin 32) (c : Fin 64) : Prop :=
  ∃ row bit, row < n ∧ bit < 8 ∧ r.val = ((s.getV y).toNat % 32 + row) % 32 ∧ c.val = ((s.getV x).toNat % 64 + bit) % 64 ∧
    (s.byteAt (s.index.toNat + row)).getLsbD (7 - bit) = true

/-- Which words select no instruction: the table of R67, family by family. -/
def unknownWord (op : Word) : Prop :=
  (fieldFam op = 0x0 ∧ op ≠ 0x00E0 ∧ op ≠ 0x00EE) ∨
  (fieldFam op = 0x5 ∧ fieldN op ≠ 0x0) ∨
  (fieldFam op = 0x8 ∧ fieldN op ∈ ([0x8, 0x9, 0xA, 0xB, 0xC, 0xD, 0xF] : List Nibble)) ∨
  (fieldFam op = 0x9 ∧ fieldN op ≠ 0x0) ∨
  (fieldFam op = 0xE ∧ fieldNN op ∉ ([0x9E, 0xA1] : List Byte)) ∨
  (fieldFam op = 0xF ∧ fieldNN op ∉ ([0x07, 0x0A, 0x15, 0x18, 0x1E, 0x29, 0x33, 0x55, 0x65] : List Byte))

/-- The stack keeps within STACK_DEPTH (R22). -/
def stackFits (depth : Option Nat) (stack : List Word) : Prop := ∀ N, depth = some N → stack.length ≤ N

/-- Every field of Machine State at its value after `Initialize` with the parameter FONT (R230, R231). -/
structure Initialized (font : Font) (s : State) : Prop where
  pc : s.pc = 0x0200
  index : s.index = 0x0000
  stack : s.stack = []
  dt : s.dt = 0x00
  st : s.st = 0x00
  key : s.key = none
  incPc : s.incPc = true
  regs : ∀ x, s.getV x = 0x00
  pixels : ∀ r c, Display.pixel s.disp r c = false
  fontCells : ∀ (i : Nat) (h : i < 80), s.byteAt (0x050 + i) = font[i]
  otherCells : ∀ a, a ≤ 0x0FFF → a < 0x050 ∨ 0x0A0 ≤ a → s.byteAt a = 0x00

/-- The invariant of the machine: memory in canonical form; `pc` at most 0x10FE (R14); `I` at most 0x1000 (R16); every stack
entry the address of a CALL that was fetched, at most 0x0FFE (R14); the stack within its bound (R22); `inc_pc` true between
operations (R84). -/
structure Inv (s : State) : Prop where
  memWf : s.memWf = true
  pcBound : s.pc.toNat ≤ 0x10FE
  indexBound : s.index.toNat ≤ 0x1000
  entryBound : ∀ e ∈ s.stack, e.toNat ≤ 0x0FFE
  depthBound : stackFits s.stackDepth s.stack
  incPcTrue : s.incPc = true

/-- The word at `pc` is a jump to itself: the criterion R247 recommends for the open parameter HALT_POLICY. -/
def atRest (s : State) : Bool :=
  match fetch s with
  | .error _ => false
  | .ok op => decide (fieldFam op = 0x1) && (addrWord (fieldNNN op) == s.pc)

/-- A run under a schedule until the host's criterion holds, HALT_POLICY as an argument (R7, R247, D24). -/
def runUntil (halted : State → Bool) : List Operation → State → State
  | [], s => s
  | op :: ops, s => if halted s then s else runUntil halted ops (after op s)

/-- A Step from `s` is safe when it answers a next state: no fault, no refusal (R214: a faulted state is never final). -/
def safeStep (s : State) : Prop := ∃ t, step s = .next t

end Sys2Proof
end

