-- ==== Sys2Proof/Certificates/Slice0/Obligations.lean ====
section
/-! DEFINITION. The statements for the provers, from the numbered rules of spec/. Each result statement says: the encoding of the
instruction, that `exec` answers a next state under hypotheses on state and operands alone, what that state holds, and that it
holds nothing else that is new (`UnchangedBut`). `exec` is the Execute phase; `advance` is what the Step adds to it. -/

open Sys2Proof Sys2Proof.Machine

/-! ### Encoding -/

/-- R61, R64 to R66: words written out nibble by nibble from the patterns decode to the instructions they stand for. -/
def Obligations.SampleWordsDecode : Prop :=
  decode [0x00, 0xE0] = .ok (.cls, []) ∧ decode [0x1A, 0xBC] = .ok (.jp 0xABC, []) ∧
  decode [0x81, 0x27] = .ok (.subnReg 1 2, []) ∧ decode [0xAF, 0xFF] = .ok (.ldI 0xFFF, []) ∧
  decode [0xD1, 0x2F] = .ok (.drw 1 2 15, []) ∧ decode [0xE1, 0x9E] = .ok (.skp 1, []) ∧
  decode [0xF2, 0x65] = .ok (.loadRegs 2, []) ∧ decode [0x01, 0xE0] = .error (.unknownOpcode 0x01E0)

/-- R64: every 16-bit word selects exactly one row of the opcode map, whose instruction the dispatch of R63 gives, or none, and
is then UNKNOWN. -/
def Obligations.EveryWordSelectsOneRowOrNone : Prop :=
  opcodeMap.length = 34 ∧
  ∀ op : Word,
    (opcodeMap.filter (fun r => r.selects op) = [] ∧ decodeWord op = .error (.unknownOpcode op)) ∨
    (∃ r, opcodeMap.filter (fun r => r.selects op) = [r] ∧ decodeWord op = .ok (r.instr op))

/-- R67, R63: the words that select no instruction are exactly those of its table (strict decoding is the spec's decision D11). -/
def Obligations.UnknownWordsAreThoseOfTheTable : Prop :=
  ∀ op : Word, (∃ e, decodeWord op = .error e) ↔ unknownWord op

/-- Decode and encode agree: no operand bit of any well-formed instruction is dropped. -/
def Obligations.DecodeOfEncodeIsTheInstruction : Prop :=
  ∀ (i : Instr) (rest : List Byte), i.wellFormed = true → decode (encode i ++ rest) = .ok (i, rest)

/-- Encode and decode agree: a word that decodes is the one encoding of a well-formed instruction. -/
def Obligations.EncodeOfDecodeIsTheWord : Prop :=
  ∀ (op : Word) (i : Instr), decodeWord op = .ok i → encodeWord i = op ∧ i.wellFormed = true

/-! ### The Step cycle -/

/-- R80, R82: when the two bytes at `pc` decode to a well-formed instruction, the Step is its Execute, then Advance; anything but
a next state from Execute ends it (`andThen`). -/
def Obligations.StepRunsTheDecodedInstruction : Prop :=
  ∀ (s : State) (i : Instr), s.pc.toNat ≤ 0x0FFE → i.wellFormed = true →
    decode [s.byteAt s.pc.toNat, s.byteAt (s.pc.toNat + 1)] = .ok (i, []) →
    step s = andThen (exec i s) fun t => .next (advance t)

/-- R83: Advance adds 2 to `pc` modulo 2^16 unless suppressed, sets `inc_pc`, and writes nothing else. -/
def Obligations.AdvanceAddsTwoUnlessSuppressed : Prop :=
  ∀ s : State,
    (advance s).pc.toNat = (if s.incPc then (s.pc.toNat + 2) % 2 ^ 16 else s.pc.toNat) ∧ (advance s).incPc = true ∧
    UnchangedBut (fun p => p = .pc ∨ p = .incPc) s (advance s) ∧
    (∀ op t, fetch s = .ok op → execute op s = .next t → step s = .next (advance t))

/-- R81, R46: Fetch reads the big-endian word at `pc`, at any parity, or faults when `pc` is past 0x0FFE (the spec's decisions D6
and D8). -/
def Obligations.FetchReadsBigEndianOrFaults : Prop :=
  ∀ s : State,
    (s.pc.toNat ≤ 0x0FFE → ∃ op, fetch s = .ok op ∧
      op.toNat = 256 * (s.byteAt s.pc.toNat).toNat + (s.byteAt (s.pc.toNat + 1)).toNat) ∧
    (0x0FFE < s.pc.toNat → fetch s = .error (.fetchOutOfRange s.pc))

/-- R207, R203: a Step begun with `pc > 0x0FFE` faults and changes nothing (the spec's decisions D6 and D20). -/
def Obligations.StepPastMemoryFaults : Prop :=
  ∀ s : State, 0x0FFE < s.pc.toNat →
    step s = .fault (.fetchOutOfRange s.pc) ∧ after .step s = s ∧ statusOf .step s = some (.fetchOutOfRange s.pc)

/-- R86, R209: a word that selects no instruction is a no-op: the Step answers, moves `pc` by 2, changes nothing else, and
reports the word and its address. -/
def Obligations.UnknownWordIsAReportedNoOp : Prop :=
  ∀ (s : State) (op : Word), fetch s = .ok op → (∃ e, decodeWord op = .error e) → s.incPc = true →
    ∃ t, step s = .next t ∧ t.pc = s.pc + 2 ∧ UnchangedBut (fun p => p = .pc) s t ∧
      statusOf .step s = some (.unknownOpcode op s.pc)

/-- The host's `withFetchWord` (log entry 4): whatever the 16-bit word, the next Fetch reads exactly it. -/
def Obligations.PlacedWordIsFetched : Prop :=
  ∀ (s : State) (op : Word), s.memWf = true → fetch (s.withFetchWord 16 op.toNat) = .ok op

/-! ### Control transfer -/

/-- R101: JP nnn sets `pc` to nnn and suppresses the Advance, so the Step ends at nnn; it writes nothing else. -/
def Obligations.JumpSetsPc : Prop :=
  ∀ (nnn : Addr12) (s : State), decodeWord (wordAddr 0x1 nnn) = .ok (.jp nnn) ∧
    ∃ t, exec (.jp nnn) s = .next t ∧ t.pc.toNat = nnn.toNat ∧ t.incPc = false ∧
      UnchangedBut (fun p => p = .pc ∨ p = .incPc) s t ∧ (advance t).pc.toNat = nnn.toNat

/-- R107: JP V0, nnn; the sum is not reduced to 12 bits and never wraps, and the Advance is suppressed (the spec's decision D4, log
entry 10). -/
def Obligations.JumpWithOffsetSetsPc : Prop :=
  ∀ (nnn : Addr12) (s : State), decodeWord (wordAddr 0xB nnn) = .ok (.jpV0 nnn) ∧
    ∃ t, exec (.jpV0 nnn) s = .next t ∧ t.pc.toNat = nnn.toNat + (s.getV 0).toNat ∧ t.pc.toNat ≤ 0x10FE ∧ t.incPc = false ∧
      UnchangedBut (fun p => p = .pc ∨ p = .incPc) s t ∧ (advance t).pc = t.pc

/-- R102: CALL nnn pushes its own address and jumps, while the stack has room; on a full stack it faults with nothing changed
(the spec's decision D9; the bound is carried in the state, log entry 2). -/
def Obligations.CallPushesItsOwnAddress : Prop :=
  ∀ (nnn : Addr12) (s : State), decodeWord (wordAddr 0x2 nnn) = .ok (.call nnn) ∧
    (s.stackDepth ≠ some s.stack.length →
      ∃ t, exec (.call nnn) s = .next t ∧ t.stack = s.stack ++ [s.pc] ∧ t.pc.toNat = nnn.toNat ∧ t.incPc = false ∧
        UnchangedBut (fun p => p = .pc ∨ p = .incPc ∨ p = .stack) s t ∧ (advance t).pc = t.pc) ∧
    (s.stackDepth = some s.stack.length →
      exec (.call nnn) s = .fault (.stackOverflow s.pc) ∧ stateAfter s (exec (.call nnn) s) = s)

/-- R205: StackOverflow is CALL on a stack that holds STACK_DEPTH entries, and cannot occur when STACK_DEPTH is unbounded (the
spec's decision D9, log entry 2). -/
def Obligations.StackOverflowExactlyWhenFull : Prop :=
  ∀ (i : Instr) (s : State) (pc : Word),
    (exec i s = .fault (.stackOverflow pc) ↔ ∃ nnn, i = .call nnn ∧ s.stackDepth = some s.stack.length ∧ pc = s.pc) ∧
    (s.stackDepth = none → exec i s ≠ .fault (.stackOverflow pc))

/-- R100: RET pops the newest entry into `pc`, leaves `inc_pc` alone, and so lands at that entry plus 2; on an empty stack it
faults with nothing changed (that nothing at all changes is the spec's decision D20, log entry 6). -/
def Obligations.ReturnPopsTheNewestEntry : Prop :=
  decodeWord 0x00EE = .ok .ret ∧
  ∀ s : State,
    (∀ (l : List Word) (e : Word), s.stack = l ++ [e] →
      ∃ t, exec .ret s = .next t ∧ t.pc = e ∧ t.stack = l ∧ UnchangedBut (fun p => p = .pc ∨ p = .stack) s t ∧
        (s.incPc = true → (advance t).pc = e + 2)) ∧
    (s.stack = [] → exec .ret s = .fault (.stackUnderflow s.pc) ∧ stateAfter s (exec .ret s) = s)

/-- R204, R203: a Step of RET on an empty stack faults, changes nothing, and faults again (the spec's decision D20). -/
def Obligations.EmptyReturnStepFaultsForEver : Prop :=
  ∀ s : State, fetch s = .ok 0x00EE → s.stack = [] →
    step s = .fault (.stackUnderflow s.pc) ∧ statusOf .step s = some (.stackUnderflow s.pc) ∧ after .step s = s ∧
      step (after .step s) = .fault (.stackUnderflow s.pc)

/-- R108: a RET that finds the stack a CALL left comes back to the word after that CALL, with the stack as it was. -/
def Obligations.ReturnComesBackAfterTheCall : Prop :=
  ∀ (nnn : Addr12) (s : State), s.stackDepth ≠ some s.stack.length →
    ∃ t, exec (.call nnn) s = .next t ∧
      ∀ u : State, u.stack = t.stack → u.incPc = true →
        ∃ w, exec .ret u = .next w ∧ w.stack = s.stack ∧ (advance w).pc = s.pc + 2

/-- R103, R104: SE Vx, nn and SNE Vx, nn write `pc` alone: a taken skip nets `pc + 4`, one not taken `pc + 2`. -/
def Obligations.ImmediateSkips : Prop :=
  ∀ (x : Reg) (nn : Byte) (s : State),
    decodeWord (wordRegByte 0x3 x nn) = .ok (.seImm x nn) ∧ decodeWord (wordRegByte 0x4 x nn) = .ok (.sneImm x nn) ∧
    (∃ t, exec (.seImm x nn) s = .next t ∧ t.pc = (if s.getV x = nn then s.pc + 2 else s.pc) ∧
      UnchangedBut (fun p => p = .pc) s t ∧
      (s.incPc = true → (advance t).pc = (if s.getV x = nn then s.pc + 4 else s.pc + 2))) ∧
    (∃ t, exec (.sneImm x nn) s = .next t ∧ t.pc = (if s.getV x ≠ nn then s.pc + 2 else s.pc) ∧
      UnchangedBut (fun p => p = .pc) s t ∧
      (s.incPc = true → (advance t).pc = (if s.getV x ≠ nn then s.pc + 4 else s.pc + 2)))

/-- R105, R106: SE Vx, Vy and SNE Vx, Vy; with x = y the first always skips and the second never does; the
words with a last nibble other than 0 are unknown (R63; the spec's decision D11, log entry 20). -/
def Obligations.RegisterSkips : Prop :=
  ∀ (x y : Reg) (s : State),
    decodeWord (wordRegReg 0x5 x y 0x0) = .ok (.seReg x y) ∧ decodeWord (wordRegReg 0x9 x y 0x0) = .ok (.sneReg x y) ∧
    (∀ k : Nibble, k ≠ 0x0 → decodeWord (wordRegReg 0x5 x y k) = .error (.unknownOpcode (wordRegReg 0x5 x y k)) ∧
      decodeWord (wordRegReg 0x9 x y k) = .error (.unknownOpcode (wordRegReg 0x9 x y k))) ∧
    (∃ t, exec (.seReg x y) s = .next t ∧ t.pc = (if s.getV x = s.getV y then s.pc + 2 else s.pc) ∧
      UnchangedBut (fun p => p = .pc) s t ∧
      (s.incPc = true → (advance t).pc = (if s.getV x = s.getV y then s.pc + 4 else s.pc + 2))) ∧
    (∃ t, exec (.sneReg x y) s = .next t ∧ t.pc = (if s.getV x ≠ s.getV y then s.pc + 2 else s.pc) ∧
      UnchangedBut (fun p => p = .pc) s t ∧
      (s.incPc = true → (advance t).pc = (if s.getV x ≠ s.getV y then s.pc + 4 else s.pc + 2)))

/-! ### Load, arithmetic, logic, shift, random -/

/-- R120: LD Vx, nn writes nn to Vx and nothing else. -/
def Obligations.LoadImmediateWritesVx : Prop :=
  ∀ (x : Reg) (nn : Byte) (s : State), decodeWord (wordRegByte 0x6 x nn) = .ok (.ldImm x nn) ∧
    ∃ t, exec (.ldImm x nn) s = .next t ∧ t.getV x = nn ∧ UnchangedBut (fun p => p = .reg x) s t

/-- R121: ADD Vx, nn wraps modulo 256 and writes no flag. -/
def Obligations.AddImmediateWrapsWithoutFlag : Prop :=
  ∀ (x : Reg) (nn : Byte) (s : State), decodeWord (wordRegByte 0x7 x nn) = .ok (.addImm x nn) ∧
    ∃ t, exec (.addImm x nn) s = .next t ∧ (t.getV x).toNat = ((s.getV x).toNat + nn.toNat) % 256 ∧
      UnchangedBut (fun p => p = .reg x) s t

/-- R122 to R125: assign, OR, AND, XOR write Vx alone, bit for bit; VF is not written (the spec's decision
D16, log entry 12). -/
def Obligations.AssignAndLogicWriteVxAlone : Prop :=
  ∀ (x y : Reg) (s : State),
    decodeWord (wordRegReg 0x8 x y 0x0) = .ok (.ldReg x y) ∧ decodeWord (wordRegReg 0x8 x y 0x1) = .ok (.orReg x y) ∧
    decodeWord (wordRegReg 0x8 x y 0x2) = .ok (.andReg x y) ∧ decodeWord (wordRegReg 0x8 x y 0x3) = .ok (.xorReg x y) ∧
    (∃ t, exec (.ldReg x y) s = .next t ∧ t.getV x = s.getV y ∧ UnchangedBut (fun p => p = .reg x) s t) ∧
    (∃ t, exec (.orReg x y) s = .next t ∧ UnchangedBut (fun p => p = .reg x) s t ∧
      ∀ b, b < 8 → (t.getV x).getLsbD b = ((s.getV x).getLsbD b || (s.getV y).getLsbD b)) ∧
    (∃ t, exec (.andReg x y) s = .next t ∧ UnchangedBut (fun p => p = .reg x) s t ∧
      ∀ b, b < 8 → (t.getV x).getLsbD b = ((s.getV x).getLsbD b && (s.getV y).getLsbD b)) ∧
    (∃ t, exec (.xorReg x y) s = .next t ∧ UnchangedBut (fun p => p = .reg x) s t ∧
      ∀ b, b < 8 → (t.getV x).getLsbD b = ((s.getV x).getLsbD b ^^ (s.getV y).getLsbD b))

/-- R126: ADD Vx, Vy writes the sum modulo 256 to Vx; VF is the carry, written last. -/
def Obligations.AddSetsCarryLast : Prop :=
  ∀ (x y : Reg) (s : State), decodeWord (wordRegReg 0x8 x y 0x4) = .ok (.addReg x y) ∧
    ∃ t, exec (.addReg x y) s = .next t ∧
      t.getV vf = (if (s.getV x).toNat + (s.getV y).toNat > 255 then 0x01 else 0x00) ∧
      (x ≠ vf → (t.getV x).toNat = ((s.getV x).toNat + (s.getV y).toNat) % 256) ∧
      UnchangedBut (fun p => p = .reg x ∨ p = .reg vf) s t

/-- R127, R129: SUB computes Vx - Vy and SUBN Vy - Vx, modulo 256; VF is 1 iff there was no borrow, written last (for
SUBN an inference of the spec's: "the flag condition is the subtraction convention applied to the operands in this order"; its sub-opcode 7
is the spec's general knowledge K1, log entry 9). -/
def Obligations.SubtractSetsNotBorrowLast : Prop :=
  ∀ (x y : Reg) (s : State),
    decodeWord (wordRegReg 0x8 x y 0x5) = .ok (.subReg x y) ∧ decodeWord (wordRegReg 0x8 x y 0x7) = .ok (.subnReg x y) ∧
    (∃ t, exec (.subReg x y) s = .next t ∧
      t.getV vf = (if (s.getV x).toNat ≥ (s.getV y).toNat then 0x01 else 0x00) ∧
      (x ≠ vf → (t.getV x).toNat = (256 + (s.getV x).toNat - (s.getV y).toNat) % 256) ∧
      UnchangedBut (fun p => p = .reg x ∨ p = .reg vf) s t) ∧
    (∃ t, exec (.subnReg x y) s = .next t ∧
      t.getV vf = (if (s.getV y).toNat ≥ (s.getV x).toNat then 0x01 else 0x00) ∧
      (x ≠ vf → (t.getV x).toNat = (256 + (s.getV y).toNat - (s.getV x).toNat) % 256) ∧
      UnchangedBut (fun p => p = .reg x ∨ p = .reg vf) s t)

/-- R128, R130: SHR and SHL shift the old Vx by one, whatever the `y` field; VF is the bit shifted out, written last. -/
def Obligations.ShiftsMoveTheLostBitToVf : Prop :=
  ∀ (x y : Reg) (s : State),
    decodeWord (wordRegReg 0x8 x y 0x6) = .ok (.shr x y) ∧ decodeWord (wordRegReg 0x8 x y 0xE) = .ok (.shl x y) ∧
    (∃ t, exec (.shr x y) s = .next t ∧ (t.getV vf).toNat = (s.getV x).toNat % 2 ∧
      (x ≠ vf → (t.getV x).toNat = (s.getV x).toNat / 2) ∧ UnchangedBut (fun p => p = .reg x ∨ p = .reg vf) s t) ∧
    (∃ t, exec (.shl x y) s = .next t ∧ (t.getV vf).toNat = (s.getV x).toNat / 128 ∧
      (x ≠ vf → (t.getV x).toNat = (2 * (s.getV x).toNat) % 256) ∧ UnchangedBut (fun p => p = .reg x ∨ p = .reg vf) s t)

/-- R134, D21: RND writes a fresh draw masked by nn. The draw is the model's free value `Config.randomByte`, numbered by `draws`
(log entry 1): nothing here rests on what it is. -/
def Obligations.RandomIsAMaskedFreshDraw : Prop :=
  ∀ (x : Reg) (nn : Byte) (s : State), decodeWord (wordRegByte 0xC x nn) = .ok (.rnd x nn) ∧
    ∃ t, exec (.rnd x nn) s = .next t ∧ t.getV x = (Config.randomByte s.draws &&& nn) ∧ t.draws = s.draws + 1 ∧
      (∀ b, nn.getLsbD b = false → (t.getV x).getLsbD b = false) ∧ (t.getV x).toNat ≤ nn.toNat ∧
      UnchangedBut (fun p => p = .reg x ∨ p = .draws) s t

/-! ### Index register and memory -/

/-- R140, R142: LD I, nnn and LD F, Vx write `I` alone; that LD F adds no font base is the spec's decision D15 (log entry 11). -/
def Obligations.IndexLoads : Prop :=
  ∀ (nnn : Addr12) (x : Reg) (s : State),
    decodeWord (wordAddr 0xA nnn) = .ok (.ldI nnn) ∧ decodeWord (wordRegByte 0xF x 0x29) = .ok (.ldF x) ∧
    (∃ t, exec (.ldI nnn) s = .next t ∧ t.index.toNat = nnn.toNat ∧ UnchangedBut (fun p => p = .index) s t) ∧
    (∃ t, exec (.ldF x) s = .next t ∧ t.index.toNat = 5 * (s.getV x).toNat ∧ UnchangedBut (fun p => p = .index) s t)

/-- R141: ADD I, Vx keeps a sum up to 0x1000 and leaves VF alone; a greater sum clears `I` and sets VF, last
(the spec's decision D13, log entry 12). -/
def Obligations.IndexAddOverflowsAbove0x1000 : Prop :=
  ∀ (x : Reg) (s : State), decodeWord (wordRegByte 0xF x 0x1E) = .ok (.addI x) ∧
    (s.index.toNat + (s.getV x).toNat ≤ 0x1000 →
      ∃ t, exec (.addI x) s = .next t ∧ t.index.toNat = s.index.toNat + (s.getV x).toNat ∧
        UnchangedBut (fun p => p = .index) s t) ∧
    (0x1000 < s.index.toNat + (s.getV x).toNat →
      ∃ t, exec (.addI x) s = .next t ∧ t.index = 0x0000 ∧ t.getV vf = 0x01 ∧
        UnchangedBut (fun p => p = .index ∨ p = .reg vf) s t)

/-- R143: LD B, Vx stores the three decimal digits at I, I+1, I+2, or faults with nothing changed when they do not all exist (the
spec's decision D7). The bytes read back in a memory of canonical form (`Inv`). -/
def Obligations.BcdStoresThreeDigits : Prop :=
  ∀ (x : Reg) (s : State), decodeWord (wordRegByte 0xF x 0x33) = .ok (.ldB x) ∧
    (s.index.toNat + 2 ≤ 0x0FFF →
      ∃ t, exec (.ldB x) s = .next t ∧ UnchangedBut (fun p => ∃ k, k < 3 ∧ p = .cell (dataAddr s k)) s t ∧
        (s.memWf = true →
          (t.byteAt (dataAddr s 0)).toNat = (s.getV x).toNat / 100 ∧
          (t.byteAt (dataAddr s 1)).toNat = (s.getV x).toNat / 10 % 10 ∧
          (t.byteAt (dataAddr s 2)).toNat = (s.getV x).toNat % 10)) ∧
    (0x0FFF < s.index.toNat + 2 →
      exec (.ldB x) s = .fault (.memOutOfRange s.index s.pc) ∧ stateAfter s (exec (.ldB x) s) = s)

/-- R144: LD [I], Vx stores V0 to Vx at I to I+x, lowest first, `I` kept, or faults with nothing changed (the spec's decisions D7
and D14, log entry 12). -/
def Obligations.StoreRegistersWritesTheBlock : Prop :=
  ∀ (x : Reg) (s : State), decodeWord (wordRegByte 0xF x 0x55) = .ok (.storeRegs x) ∧
    (s.index.toNat + x.val ≤ 0x0FFF →
      ∃ t, exec (.storeRegs x) s = .next t ∧ UnchangedBut (fun p => ∃ k, k ≤ x.val ∧ p = .cell (dataAddr s k)) s t ∧
        (s.memWf = true → ∀ k : Reg, k ≤ x → t.byteAt (dataAddr s k.val) = s.getV k)) ∧
    (0x0FFF < s.index.toNat + x.val →
      exec (.storeRegs x) s = .fault (.memOutOfRange s.index s.pc) ∧ stateAfter s (exec (.storeRegs x) s) = s)

/-- R145: LD Vx, [I] loads V0 to Vx from I to I+x, lowest first, `I` kept, or faults with nothing changed (the spec's decisions D7
and D14, log entry 12). -/
def Obligations.LoadRegistersReadsTheBlock : Prop :=
  ∀ (x : Reg) (s : State), decodeWord (wordRegByte 0xF x 0x65) = .ok (.loadRegs x) ∧
    (s.index.toNat + x.val ≤ 0x0FFF →
      ∃ t, exec (.loadRegs x) s = .next t ∧ (∀ k : Reg, k ≤ x → t.getV k = s.byteAt (dataAddr s k.val)) ∧
        UnchangedBut (fun p => ∃ k : Reg, k ≤ x ∧ p = .reg k) s t) ∧
    (0x0FFF < s.index.toNat + x.val →
      exec (.loadRegs x) s = .fault (.memOutOfRange s.index s.pc) ∧ stateAfter s (exec (.loadRegs x) s) = s)

/-- R206: MemOutOfRange is raised by exactly these four instructions, exactly when their range passes 0x0FFF (the
spec's decision D7). -/
def Obligations.MemOutOfRangeExactlyWhen : Prop :=
  ∀ (i : Instr) (s : State) (index pc : Word),
    exec i s = .fault (.memOutOfRange index pc) ↔
      index = s.index ∧ pc = s.pc ∧
      ((∃ x, i = .ldB x ∧ s.index.toNat + 2 > 0x0FFF) ∨
       (∃ x : Reg, (i = .storeRegs x ∨ i = .loadRegs x) ∧ s.index.toNat + x.val > 0x0FFF) ∨
       (∃ x y n, i = .drw x y n ∧ n > 0 ∧ s.index.toNat + n - 1 > 0x0FFF))

/-- R52: after LD [I], Vx, a Fetch at a stored pair of cells reads the stored bytes. -/
def Obligations.StoredBytesAreFetchedNext : Prop :=
  ∀ (x : Reg) (s : State) (k : Nat) (hk : k + 1 ≤ x.val), s.memWf = true → s.index.toNat + x.val ≤ 0x0FFF →
    (advance s).pc.toNat = dataAddr s k →
    ∃ t, exec (.storeRegs x) s = .next t ∧
      fetch (advance t) = .ok (s.getV ⟨k, by omega⟩ ++ s.getV ⟨k + 1, by omega⟩)

/-! ### Display -/

/-- R160: CLS turns every pixel off and writes nothing else. -/
def Obligations.ClearTurnsEveryPixelOff : Prop :=
  decodeWord 0x00E0 = .ok .cls ∧
  ∀ s : State, ∃ t, exec .cls s = .next t ∧ (∀ r c, Display.pixel t.disp r c = false) ∧
    UnchangedBut (fun p => ∃ r c, p = .pixel r c) s t

/-- R161, R164: DRW answers whenever it draws nothing or its rows all exist; it writes pixels and VF, which becomes 0 or 1. -/
def Obligations.DrawWritesPixelsAndVf : Prop :=
  ∀ (x y : Reg) (n : Nat) (s : State), n ≤ 15 →
    decodeWord (wordRegReg 0xD x y (BitVec.ofNat 4 n)) = .ok (.drw x y n) ∧
    (n = 0 ∨ s.index.toNat + n - 1 ≤ 0x0FFF →
      ∃ t, exec (.drw x y n) s = .next t ∧ (t.getV vf = 0x00 ∨ t.getV vf = 0x01) ∧
        UnchangedBut (fun p => p = .reg vf ∨ ∃ r c, p = .pixel r c) s t)

/-- R162: the pixel law. The loop of R161, bit by bit over the display, flips exactly the pixels a set sprite bit lies on, with
wraparound, and VF is 1 iff one of those was on. -/
def Obligations.DrawFlipsExactlyTheCoveredPixels : Prop :=
  ∀ (x y : Reg) (n : Nat) (s : State), n ≤ 15 → (n = 0 ∨ s.index.toNat + n - 1 ≤ 0x0FFF) →
    ∃ t, exec (.drw x y n) s = .next t ∧
      (∀ r c, spriteCovers s x y n r c → Display.pixel t.disp r c = !Display.pixel s.disp r c) ∧
      (∀ r c, ¬ spriteCovers s x y n r c → Display.pixel t.disp r c = Display.pixel s.disp r c) ∧
      ((∃ r c, spriteCovers s x y n r c ∧ Display.pixel s.disp r c = true) → t.getV vf = 0x01) ∧
      ((¬ ∃ r c, spriteCovers s x y n r c ∧ Display.pixel s.disp r c = true) → t.getV vf = 0x00)

/-- R162 (`90_conflicts.md` C6): drawing the same sprite twice at the same place restores every pixel, for any sprite; the second draw
reports a collision iff the first turned a pixel on. -/
def Obligations.DrawingTwiceRestoresTheDisplay : Prop :=
  ∀ (x y : Reg) (n : Nat) (s : State), n ≤ 15 → (n = 0 ∨ s.index.toNat + n - 1 ≤ 0x0FFF) →
    ∃ t, exec (.drw x y n) s = .next t ∧
      ∀ u : State, u.disp = t.disp → (∀ a, u.byteAt a = s.byteAt a) → u.index = s.index → u.getV x = s.getV x → u.getV y = s.getV y →
        ∃ w, exec (.drw x y n) u = .next w ∧ (∀ r c, Display.pixel w.disp r c = Display.pixel s.disp r c) ∧
          (w.getV vf = 0x01 ↔ ∃ r c, Display.pixel s.disp r c = false ∧ Display.pixel t.disp r c = true)

/-- R163: with n = 0 no range check applies, no pixel changes, and VF is still reset (the spec's decision D17, log entry 15). -/
def Obligations.DrawOfNoRowsOnlyResetsVf : Prop :=
  ∀ (x y : Reg) (s : State), decodeWord (wordRegReg 0xD x y 0x0) = .ok (.drw x y 0) ∧
    ∃ t, exec (.drw x y 0) s = .next t ∧ t.getV vf = 0x00 ∧ UnchangedBut (fun p => p = .reg vf) s t

/-! ### Keypad and timers -/

/-- R170, R171, R176: SKP skips iff a key is pressed whose code is the whole byte Vx; SKNP iff not; so exactly one of the two
(no key equals no register value: the spec's decision D10, log entry 13). -/
def Obligations.KeySkips : Prop :=
  ∀ (x : Reg) (s : State),
    decodeWord (wordRegByte 0xE x 0x9E) = .ok (.skp x) ∧ decodeWord (wordRegByte 0xE x 0xA1) = .ok (.sknp x) ∧
    ∃ t u, exec (.skp x) s = .next t ∧ exec (.sknp x) s = .next u ∧
      UnchangedBut (fun p => p = .pc) s t ∧ UnchangedBut (fun p => p = .pc) s u ∧
      ((∃ k : Key, s.key = some k ∧ k.toNat = (s.getV x).toNat) → t.pc = s.pc + 2 ∧ u.pc = s.pc) ∧
      ((¬ ∃ k : Key, s.key = some k ∧ k.toNat = (s.getV x).toNat) → t.pc = s.pc ∧ u.pc = s.pc + 2) ∧
      (s.incPc = true → ((advance t).pc = s.pc + 4 ∧ (advance u).pc = s.pc + 2) ∨
        ((advance t).pc = s.pc + 2 ∧ (advance u).pc = s.pc + 4))

/-- R172: LD Vx, K with no key pressed suppresses the Advance and changes nothing else; with a key pressed it stores the code
(the spec's decisions D3 and D27, log entry 15). -/
def Obligations.KeyWaitOrStore : Prop :=
  ∀ (x : Reg) (s : State), decodeWord (wordRegByte 0xF x 0x0A) = .ok (.ldVxK x) ∧
    (s.key = none → ∃ t, exec (.ldVxK x) s = .next t ∧ t.incPc = false ∧ UnchangedBut (fun p => p = .incPc) s t ∧
      (advance t).pc = s.pc) ∧
    (∀ k, s.key = some k → ∃ t, exec (.ldVxK x) s = .next t ∧ (t.getV x).toNat = k.toNat ∧
      UnchangedBut (fun p => p = .reg x) s t)

/-- R172, R210: a blocked Step of LD Vx, K leaves the whole state as it was and reports KEY_WAIT; the next Step finds it again
(the spec's decision D3). -/
def Obligations.BlockedKeyWaitStepChangesNothing : Prop :=
  ∀ (x : Reg) (s : State), fetch s = .ok (wordRegByte 0xF x 0x0A) → s.key = none → s.incPc = true →
    step s = .next s ∧ statusOf .step s = some .keyWait

/-- R173 to R175: the timer instructions move one byte and nothing else (which code does which is UNVERIFIED, log entry 9). -/
def Obligations.TimerMoves : Prop :=
  ∀ (x : Reg) (s : State),
    decodeWord (wordRegByte 0xF x 0x07) = .ok (.ldVxDt x) ∧ decodeWord (wordRegByte 0xF x 0x15) = .ok (.ldDtVx x) ∧
    decodeWord (wordRegByte 0xF x 0x18) = .ok (.ldStVx x) ∧
    (∃ t, exec (.ldVxDt x) s = .next t ∧ t.getV x = s.dt ∧ UnchangedBut (fun p => p = .reg x) s t) ∧
    (∃ t, exec (.ldDtVx x) s = .next t ∧ t.dt = s.getV x ∧ UnchangedBut (fun p => p = .dt) s t) ∧
    (∃ t, exec (.ldStVx x) s = .next t ∧ t.st = s.getV x ∧ UnchangedBut (fun p => p = .st) s t)

/-! ### The host's operations -/

/-- R178: Tick decrements each timer that is not 0, and changes nothing else (one Tick for both: the spec's decision D33). -/
def Obligations.TickCountsBothTimersDown : Prop :=
  ∀ s : State, ∃ t, perform .tick s = .next t ∧ t.dt.toNat = s.dt.toNat - 1 ∧ t.st.toNat = s.st.toNat - 1 ∧
    UnchangedBut (fun p => p = .dt ∨ p = .st) s t ∧ statusOf .tick s = some .ok

/-- R177: SetKey stores its value, and changes nothing else; the last of two wins (only the 17 values can be said: the spec's
decision D34). -/
def Obligations.LastKeySetWins : Prop :=
  ∀ (k k' : Option Key) (s : State), ∃ t, perform (.pressKey k) s = .next t ∧ t.key = k ∧
    UnchangedBut (fun p => p = .key) s t ∧ after (.pressKey k') t = after (.pressKey k') s

/-- R233: Load copies up to 3584 bytes to 0x200 upward and changes nothing else, or faults with nothing changed (the
spec's decision D26). -/
def Obligations.LoadCopiesAllOrNothing : Prop :=
  ∀ (bytes : List Byte) (s : State),
    (bytes.length ≤ 3584 → ∃ t, perform (.load bytes) s = .next t ∧
      UnchangedBut (fun p => ∃ k, k < bytes.length ∧ p = .cell (0x200 + k)) s t ∧
      (s.memWf = true → ∀ (k : Nat) (h : k < bytes.length), t.byteAt (0x200 + k) = bytes[k])) ∧
    (3584 < bytes.length → perform (.load bytes) s = .fault (.loadOverflow bytes.length) ∧ after (.load bytes) s = s)

/-- R230: Initialize sets every field of Machine State, from any state, with the font after the zeroing, whatever the parameter
`FONT` (log entry 3); it cannot fault. The fields of the model's own stay (log entries 1 to 3). -/
def Obligations.InitializeSetsEveryField : Prop :=
  ∀ s : State, ∃ t, perform .reinit s = .next t ∧ Initialized s.font t ∧
    t.draws = s.draws ∧ t.stackDepth = s.stackDepth ∧ t.font = s.font ∧ statusOf .reinit s = some .ok

/-- R231: the state after reset, field by field, whatever the parameters FONT and STACK_DEPTH (R7, R25); the machine's own reset
takes their defaults (log entries 2 and 3). -/
def Obligations.ResetState : Prop :=
  core.reset = State.reset ∧ State.reset = State.resetWith Config.resetFont Config.resetStackDepth ∧
  ∀ (font : Font) (depth : Option Nat), Initialized font (State.resetWith font depth) ∧
    (State.resetWith font depth).font = font ∧ (State.resetWith font depth).stackDepth = depth

/-- R219: ReadDisplay gives 2048 pixels, `disp[r][c]` at `r*64 + c`; the two reads change nothing. -/
def Obligations.DisplayIsReadRowMajor : Prop :=
  ∀ s : State, (displayPixels s).length = 2048 ∧
    (∀ (r : Fin 32) (c : Fin 64), (displayPixels s)[r.val * 64 + c.val]? = some (Display.pixel s.disp r c)) ∧
    perform .readDisplay s = .next s ∧ perform .readState s = .next s

/-- R200, R89, R202: every operation on every state returns exactly one status; it is of the class fault exactly when the
operation faults, and only a Step returns a report (the classes are the spec's decision D19; a status is computed, log entry 7). -/
def Obligations.EveryOperationReturnsOneStatus : Prop :=
  ∀ (op : Operation) (s : State), ∃ st, statusOf op s = some st ∧
    (st.cls = .fault ↔ ∃ f, perform op s = .fault f) ∧ (st.cls = .report → op = .step ∧ ∃ t, step s = .next t)

/-- R203, R214: a fault of any operation leaves the Machine State exactly as it was, and the same operation faults again (the
spec's decision D20, log entry 6). -/
def Obligations.FaultChangesNothing : Prop :=
  ∀ (op : Operation) (s : State) (f : Fault), perform op s = .fault f →
    after op s = s ∧ perform op (after op s) = .fault f ∧ statusOf op s = some (Fault.status f)

/-! ### Rules about the whole machine -/

/-- R26: every instruction, when it answers a next state, writes in Execute only what the summary table gives it. -/
def Obligations.ExecuteWritesOnlyWhatTheTableGives : Prop :=
  ∀ (i : Instr) (s t : State), exec i s = .next t → UnchangedBut (writesOf i s) s t

/-- R201, R211: an instruction answers a next state exactly when its one check passes, faults exactly with that check's fault,
and so is never refused (the spec's decision D32). -/
def Obligations.ExecuteFaultsExactlyAsTabled : Prop :=
  ∀ (i : Instr) (s : State),
    (faultOf i s = none → ∃ t, exec i s = .next t) ∧ (∀ f, faultOf i s = some f → exec i s = .fault f)

/-- R21: in Execute `inc_pc` is cleared by exactly JP, CALL, JP V0 and a blocked LD Vx, K, and set by nothing. -/
def Obligations.AdvanceFlagClearedByExactly : Prop :=
  ∀ (i : Instr) (s t : State), exec i s = .next t → t.incPc = (if suppresses i s then false else s.incPc)

/-- R19, R175: no instruction reads ST: started with another value of ST, Execute gives the same outcome, ST apart. -/
def Obligations.SoundTimerIsReadByNoInstruction : Prop :=
  ∀ (i : Instr) (s : State) (b : Byte),
    (∀ t, exec i s = .next t → ∃ u, exec i (s.setSt b) = .next u ∧ UnchangedBut (fun p => p = .st) t u) ∧
    (∀ f, exec i s = .fault f → exec i (s.setSt b) = .fault f)

/-- R247: at a jump to itself every further Step leaves the whole state unchanged (the criterion is the spec's
recommendation D24, log entry 8). -/
def Obligations.SelfJumpIsAtRest : Prop :=
  ∀ s : State, atRest s = true → s.incPc = true → step s = .next s ∧ statusOf .step s = some .ok

/-- The invariant holds at reset, for every FONT and every STACK_DEPTH. -/
def Obligations.InvariantHoldsAtReset : Prop :=
  ∀ (font : Font) (depth : Option Nat), Inv (State.resetWith font depth)

/-- R14, R16, R22, R84 as an invariant: from every state that meets it, a Step that answers gives a state that meets it. -/
def Obligations.StepKeepsTheInvariant : Prop :=
  ∀ s t : State, Inv s → step s = .next t → Inv t

/-- R14, R16, R22, R84: every operation of the host keeps the invariant, a faulted one included. -/
def Obligations.EveryOperationKeepsTheInvariant : Prop :=
  ∀ (op : Operation) (s : State), Inv s → Inv (after op s)

/-- R14, R16, R84: in every state any schedule of operations reaches from reset, for every FONT and every STACK_DEPTH, `pc` is at
most 0x10FE, `I` at most 0x1000, `inc_pc` true, memory canonical, the stack within its bound, and the two parameters are what they
were (R7, R25). -/
def Obligations.ReachableStatesKeepTheirBounds : Prop :=
  ∀ (ops : List Operation) (font : Font) (depth : Option Nat) (s : State), s = runAll ops (State.resetWith font depth) →
    s.pc.toNat ≤ 0x10FE ∧ s.index.toNat ≤ 0x1000 ∧ s.incPc = true ∧ s.memWf = true ∧
    (∀ N, depth = some N → s.stack.length ≤ N) ∧ s.font = font ∧ s.stackDepth = depth
end

