-- ==== Sys2Proof/Laws/Fields.lean ====
section
/-! SUPPORT. The fields of a word built from its fields (30_encoding R61), and what a field is as a number. -/

namespace Sys2Proof

theorem fieldFam_toNat (op : Word) : (fieldFam op).toNat = op.toNat / 4096 := by
  simp [fieldFam, BitVec.extractLsb'_toNat, Nat.shiftRight_eq_div_pow]
  omega

theorem fieldX_val (op : Word) : (fieldX op).val = op.toNat / 256 % 16 := by
  show (op.extractLsb' 8 4).toNat = _
  simp [BitVec.extractLsb'_toNat, Nat.shiftRight_eq_div_pow]

theorem fieldY_val (op : Word) : (fieldY op).val = op.toNat / 16 % 16 := by
  show (op.extractLsb' 4 4).toNat = _
  simp [BitVec.extractLsb'_toNat, Nat.shiftRight_eq_div_pow]

theorem fieldN_toNat (op : Word) : (fieldN op).toNat = op.toNat % 16 := by
  simp [fieldN, BitVec.extractLsb'_toNat]

theorem fieldNN_toNat (op : Word) : (fieldNN op).toNat = op.toNat % 256 := by
  simp [fieldNN, BitVec.extractLsb'_toNat]

theorem fieldNNN_toNat (op : Word) : (fieldNNN op).toNat = op.toNat % 4096 := by
  simp [fieldNNN, BitVec.extractLsb'_toNat]

theorem regNibble_toNat (x : Reg) : (regNibble x).toNat = x.val := rfl

theorem append_toNat {a b : Nat} (u : BitVec a) (w : BitVec b) : (u ++ w).toNat = u.toNat * 2 ^ b + w.toNat := by
  rw [BitVec.toNat_append, Nat.shiftLeft_eq, Nat.mul_comm, Nat.two_pow_add_eq_or_of_lt w.isLt, Nat.mul_comm]

theorem wordAddr_toNat (f : Nibble) (nnn : Addr12) : (wordAddr f nnn).toNat = f.toNat * 4096 + nnn.toNat :=
  append_toNat f nnn

theorem wordRegByte_toNat (f : Nibble) (x : Reg) (nn : Byte) :
    (wordRegByte f x nn).toNat = f.toNat * 4096 + x.val * 256 + nn.toNat := by
  have h := append_toNat (f ++ regNibble x) nn
  have h2 := append_toNat f (regNibble x)
  rw [regNibble_toNat] at h2
  rw [h2] at h
  show (f ++ regNibble x ++ nn).toNat = _
  rw [h]; omega

theorem wordRegReg_toNat (f : Nibble) (x y : Reg) (n : Nibble) :
    (wordRegReg f x y n).toNat = f.toNat * 4096 + x.val * 256 + y.val * 16 + n.toNat := by
  have h := append_toNat (f ++ regNibble x ++ regNibble y) n
  have h2 := append_toNat (f ++ regNibble x) (regNibble y)
  have h3 := append_toNat f (regNibble x)
  rw [regNibble_toNat] at h2 h3
  rw [h3] at h2
  rw [h2] at h
  show (f ++ regNibble x ++ regNibble y ++ n).toNat = _
  rw [h]; omega

@[simp] theorem fieldFam_wordAddr (f : Nibble) (nnn : Addr12) : fieldFam (wordAddr f nnn) = f := by
  apply BitVec.eq_of_toNat_eq
  rw [fieldFam_toNat, wordAddr_toNat]; have := nnn.isLt; omega

@[simp] theorem fieldNNN_wordAddr (f : Nibble) (nnn : Addr12) : fieldNNN (wordAddr f nnn) = nnn := by
  apply BitVec.eq_of_toNat_eq
  rw [fieldNNN_toNat, wordAddr_toNat]; have := nnn.isLt; omega

@[simp] theorem fieldFam_wordRegByte (f : Nibble) (x : Reg) (nn : Byte) : fieldFam (wordRegByte f x nn) = f := by
  apply BitVec.eq_of_toNat_eq
  rw [fieldFam_toNat, wordRegByte_toNat]; have := nn.isLt; have := x.isLt; omega

@[simp] theorem fieldX_wordRegByte (f : Nibble) (x : Reg) (nn : Byte) : fieldX (wordRegByte f x nn) = x := by
  apply Fin.ext
  rw [fieldX_val, wordRegByte_toNat]; have := nn.isLt; have := x.isLt; omega

@[simp] theorem fieldNN_wordRegByte (f : Nibble) (x : Reg) (nn : Byte) : fieldNN (wordRegByte f x nn) = nn := by
  apply BitVec.eq_of_toNat_eq
  rw [fieldNN_toNat, wordRegByte_toNat]; have := nn.isLt; omega

@[simp] theorem fieldFam_wordRegReg (f : Nibble) (x y : Reg) (n : Nibble) : fieldFam (wordRegReg f x y n) = f := by
  apply BitVec.eq_of_toNat_eq
  rw [fieldFam_toNat, wordRegReg_toNat]; have := n.isLt; have := x.isLt; have := y.isLt; omega

@[simp] theorem fieldX_wordRegReg (f : Nibble) (x y : Reg) (n : Nibble) : fieldX (wordRegReg f x y n) = x := by
  apply Fin.ext
  rw [fieldX_val, wordRegReg_toNat]; have := n.isLt; have := x.isLt; have := y.isLt; omega

@[simp] theorem fieldY_wordRegReg (f : Nibble) (x y : Reg) (n : Nibble) : fieldY (wordRegReg f x y n) = y := by
  apply Fin.ext
  rw [fieldY_val, wordRegReg_toNat]; have := n.isLt; have := x.isLt; have := y.isLt; omega

@[simp] theorem fieldN_wordRegReg (f : Nibble) (x y : Reg) (n : Nibble) : fieldN (wordRegReg f x y n) = n := by
  apply BitVec.eq_of_toNat_eq
  rw [fieldN_toNat, wordRegReg_toNat]; have := n.isLt; omega

/-- The two bytes of a word form that word again (20_memory R46). -/
@[simp] theorem wordOfBytes_bytes (op : Word) : wordOfBytes (firstByte op) (secondByte op) = op := by
  apply BitVec.eq_of_toNat_eq
  have h : (wordOfBytes (firstByte op) (secondByte op)).toNat = (firstByte op).toNat * 256 + (secondByte op).toNat :=
    append_toNat _ _
  rw [h]
  have := op.isLt
  simp [firstByte, secondByte, BitVec.extractLsb'_toNat, Nat.shiftRight_eq_div_pow]
  omega

end Sys2Proof
end

