-- ==== Sys2Proof/Laws/Memory.lean ====
section
/-! SUPPORT. The laws of memory: a write leaves every other cell alone (any list at all), a read after a write gives the value
written (canonical form), every write keeps the canonical form, and the same for a run of consecutive cells (20_memory R49, R50). -/

namespace Sys2Proof.Machine

variable {f : Font}

@[simp] theorem Memory.read_nil (a : Nat) : Memory.read f [] a = Memory.unlisted f a := rfl

/-- A write leaves every other cell alone; no canonical form is needed. -/
theorem Memory.read_write_other (m : Memory) (a b : Nat) (w : Byte) (h : b ≠ a) :
    Memory.read f (Memory.write f m a w) b = Memory.read f m b := by
  induction m with
  | nil => by_cases hw : w = Memory.unlisted f a <;> simp [Memory.write, Memory.read, hw, h]
  | cons e m ih =>
    obtain ⟨k, u⟩ := e
    by_cases h1 : a < k
    · by_cases hw : w = Memory.unlisted f a <;> simp [Memory.write, Memory.read, h1, hw, h]
    · by_cases h2 : a = k
      · subst h2
        by_cases hw : w = Memory.unlisted f a <;> simp [Memory.write, Memory.read, hw, h]
      · simp [Memory.write, Memory.read, h1, h2, ih]

/-- Below the first listed address a canonical memory reads as at reset. -/
theorem Memory.read_below {m : Memory} {lo a : Nat} (hm : Memory.wfFrom f lo m = true) (h : a < lo) :
    Memory.read f m a = Memory.unlisted f a := by
  induction m generalizing lo with
  | nil => rfl
  | cons e m ih =>
    obtain ⟨k, u⟩ := e
    simp only [Memory.wfFrom, Bool.and_eq_true, decide_eq_true_eq] at hm
    have hne : a ≠ k := by omega
    simp only [Memory.read, if_neg hne]
    exact ih hm.2 (by omega)

/-- Reading what was just written, from any start of the canonical form. -/
theorem Memory.read_write_same_from {m : Memory} {lo : Nat} (hm : Memory.wfFrom f lo m = true) (a : Nat) (w : Byte) :
    Memory.read f (Memory.write f m a w) a = w := by
  induction m generalizing lo with
  | nil => by_cases hw : w = Memory.unlisted f a <;> simp [Memory.write, Memory.read, hw]
  | cons e m ih =>
    obtain ⟨k, u⟩ := e
    have hm' := hm
    simp only [Memory.wfFrom, Bool.and_eq_true, decide_eq_true_eq] at hm
    by_cases h1 : a < k
    · by_cases hw : w = Memory.unlisted f a
      · have hne : a ≠ k := by omega
        simp only [Memory.write, if_pos h1, if_pos hw, Memory.read, if_neg hne]
        rw [Memory.read_below hm.2 (by omega), hw]
      · simp [Memory.write, Memory.read, h1, hw]
    · by_cases h2 : a = k
      · subst h2
        by_cases hw : w = Memory.unlisted f a
        · simp only [Memory.write, if_neg h1, if_pos hw, if_true]
          rw [Memory.read_below hm.2 (by omega), hw]
        · simp [Memory.write, Memory.read, hw]
      · simp only [Memory.write, if_neg h1, if_neg h2, Memory.read]
        exact ih hm.2

/-- A read after a write to the same cell gives the value written. -/
theorem Memory.read_write_same {m : Memory} (hm : Memory.wf f m = true) (a : Nat) (w : Byte) :
    Memory.read f (Memory.write f m a w) a = w := Memory.read_write_same_from hm a w

/-- The canonical form from a higher address is one from a lower. -/
theorem Memory.wfFrom_mono {m : Memory} {lo hi : Nat} (hm : Memory.wfFrom f hi m = true) (h : lo ≤ hi) :
    Memory.wfFrom f lo m = true := by
  cases m with
  | nil => rfl
  | cons e m =>
    obtain ⟨k, u⟩ := e
    simp only [Memory.wfFrom, Bool.and_eq_true, decide_eq_true_eq] at hm ⊢
    exact ⟨⟨⟨by omega, hm.1.1.2⟩, hm.1.2⟩, hm.2⟩

theorem Memory.write_wfFrom {m : Memory} {lo a : Nat} (hm : Memory.wfFrom f lo m = true) (hlo : lo ≤ a)
    (ha : a ≤ Config.memTop) (w : Byte) : Memory.wfFrom f lo (Memory.write f m a w) = true := by
  induction m generalizing lo with
  | nil => by_cases hw : w = Memory.unlisted f a <;> simp [Memory.write, Memory.wfFrom, hw, hlo, ha]
  | cons e m ih =>
    obtain ⟨k, u⟩ := e
    have hm' := hm
    simp only [Memory.wfFrom, Bool.and_eq_true, decide_eq_true_eq] at hm
    obtain ⟨⟨⟨h3, h4⟩, h5⟩, h6⟩ := hm
    by_cases h1 : a < k
    · by_cases hw : w = Memory.unlisted f a
      · simpa [Memory.write, h1, hw] using hm'
      · have : a + 1 ≤ k := h1
        simp [Memory.write, Memory.wfFrom, h1, hw, hlo, ha, this, h4, h6]
        simpa using h5
    · by_cases h2 : a = k
      · subst h2
        by_cases hw : w = Memory.unlisted f a
        · simp only [Memory.write, if_neg h1, if_pos hw, if_true]
          exact Memory.wfFrom_mono h6 (by omega)
        · simp [Memory.write, Memory.wfFrom, hw, hlo, ha, h6]
      · have h7 : k + 1 ≤ a := by omega
        simp only [Memory.write, if_neg h1, if_neg h2, Memory.wfFrom, ih h6 h7, Bool.and_true, Bool.and_eq_true,
          decide_eq_true_eq]
        exact ⟨⟨h3, h4⟩, h5⟩

/-- A write to an address that exists keeps the canonical form. -/
theorem Memory.write_wf {m : Memory} (hm : Memory.wf f m = true) {a : Nat} (ha : a ≤ Config.memTop) (w : Byte) :
    Memory.wf f (Memory.write f m a w) = true := Memory.write_wfFrom hm (Nat.zero_le a) ha w

/-- A run of writes keeps the canonical form when all its addresses exist. -/
theorem Memory.writeAll_wf {m : Memory} (hm : Memory.wf f m = true) {a : Nat} {bs : List Byte}
    (ha : a + bs.length ≤ Config.memTop + 1) : Memory.wf f (Memory.writeAll f m a bs) = true := by
  induction bs generalizing m a with
  | nil => exact hm
  | cons b bs ih =>
    simp only [List.length_cons] at ha
    exact ih (Memory.write_wf hm (by omega) b) (by omega)

/-- A run of writes leaves every cell outside it alone; no canonical form is needed. -/
theorem Memory.read_writeAll_outside (m : Memory) (a b : Nat) (bs : List Byte) (h : b < a ∨ a + bs.length ≤ b) :
    Memory.read f (Memory.writeAll f m a bs) b = Memory.read f m b := by
  induction bs generalizing m a with
  | nil => rfl
  | cons c bs ih =>
    simp only [List.length_cons] at h
    rw [Memory.writeAll, ih _ _ (by omega), Memory.read_write_other _ _ _ _ (by omega)]

/-- A run of writes reads back, byte for byte. -/
theorem Memory.read_writeAll_inside {m : Memory} (hm : Memory.wf f m = true) {a : Nat} {bs : List Byte}
    (ha : a + bs.length ≤ Config.memTop + 1) (k : Nat) (hk : k < bs.length) :
    Memory.read f (Memory.writeAll f m a bs) (a + k) = bs[k] := by
  induction bs generalizing m a k with
  | nil => simp at hk
  | cons c bs ih =>
    simp only [List.length_cons] at ha hk
    cases k with
    | zero =>
      rw [Memory.writeAll, Memory.read_writeAll_outside _ _ _ _ (by omega)]
      exact Memory.read_write_same hm a c
    | succ k =>
      have := ih (Memory.write_wf hm (a := a) (by omega) c) (a := a + 1) (by omega) k (by omega)
      rw [Memory.writeAll, show a + (k + 1) = a + 1 + k by omega, this]
      rfl

/-- The reset memory has the canonical form, whatever the parameters. -/
theorem Memory.reset_wf (f : Font) (depth : Option Nat) : (State.resetWith f depth).memWf = true := rfl

/-- The font is where `Initialize` puts it (R230). -/
theorem Memory.unlisted_font (f : Font) (i : Nat) (h : i < 80) : Memory.unlisted f (0x050 + i) = f[i] := by
  have hc : Config.fontAddr ≤ 0x050 + i ∧ 0x050 + i < Config.fontAddr + Config.fontSize := by
    simp only [Config.fontAddr, Config.fontSize]; omega
  have hi : 0x050 + i - Config.fontAddr = i := by simp only [Config.fontAddr]; omega
  simp only [Memory.unlisted, if_pos hc, hi, Vector.getElem?_eq_getElem h, Option.getD_some]

/-- Every other cell is zeroed (R230). -/
theorem Memory.unlisted_zero (f : Font) (a : Nat) (h : a < 0x050 ∨ 0x0A0 ≤ a) : Memory.unlisted f a = 0 := by
  refine if_neg ?_
  simp only [Config.fontAddr, Config.fontSize]; omega

end Sys2Proof.Machine
end

