-- ==== Sys2Proof/Laws/State.lean ====
section
/-! SUPPORT. What each field of State, and each variable register, reads after each named update: by rfl, for simp, so that no
proof unfolds a record update. -/

namespace Sys2Proof.Machine

@[simp] theorem State.setMem_mem (s : State) (m : Memory) : (s.setMem m).mem = m := rfl
@[simp] theorem State.setMem_disp (s : State) (m : Memory) : (s.setMem m).disp = s.disp := rfl
@[simp] theorem State.setMem_pc (s : State) (m : Memory) : (s.setMem m).pc = s.pc := rfl
@[simp] theorem State.setMem_index (s : State) (m : Memory) : (s.setMem m).index = s.index := rfl
@[simp] theorem State.setMem_stack (s : State) (m : Memory) : (s.setMem m).stack = s.stack := rfl
@[simp] theorem State.setMem_v (s : State) (m : Memory) : (s.setMem m).v = s.v := rfl
@[simp] theorem State.setMem_dt (s : State) (m : Memory) : (s.setMem m).dt = s.dt := rfl
@[simp] theorem State.setMem_st (s : State) (m : Memory) : (s.setMem m).st = s.st := rfl
@[simp] theorem State.setMem_key (s : State) (m : Memory) : (s.setMem m).key = s.key := rfl
@[simp] theorem State.setMem_incPc (s : State) (m : Memory) : (s.setMem m).incPc = s.incPc := rfl
@[simp] theorem State.setMem_draws (s : State) (m : Memory) : (s.setMem m).draws = s.draws := rfl
@[simp] theorem State.setMem_stackDepth (s : State) (m : Memory) : (s.setMem m).stackDepth = s.stackDepth := rfl
@[simp] theorem State.setMem_font (s : State) (m : Memory) : (s.setMem m).font = s.font := rfl
@[simp] theorem State.setMem_getV (s : State) (m : Memory) (x : Reg) : (s.setMem m).getV x = s.getV x := rfl

@[simp] theorem State.setDisp_mem (s : State) (d : Display) : (s.setDisp d).mem = s.mem := rfl
@[simp] theorem State.setDisp_disp (s : State) (d : Display) : (s.setDisp d).disp = d := rfl
@[simp] theorem State.setDisp_pc (s : State) (d : Display) : (s.setDisp d).pc = s.pc := rfl
@[simp] theorem State.setDisp_index (s : State) (d : Display) : (s.setDisp d).index = s.index := rfl
@[simp] theorem State.setDisp_stack (s : State) (d : Display) : (s.setDisp d).stack = s.stack := rfl
@[simp] theorem State.setDisp_v (s : State) (d : Display) : (s.setDisp d).v = s.v := rfl
@[simp] theorem State.setDisp_dt (s : State) (d : Display) : (s.setDisp d).dt = s.dt := rfl
@[simp] theorem State.setDisp_st (s : State) (d : Display) : (s.setDisp d).st = s.st := rfl
@[simp] theorem State.setDisp_key (s : State) (d : Display) : (s.setDisp d).key = s.key := rfl
@[simp] theorem State.setDisp_incPc (s : State) (d : Display) : (s.setDisp d).incPc = s.incPc := rfl
@[simp] theorem State.setDisp_draws (s : State) (d : Display) : (s.setDisp d).draws = s.draws := rfl
@[simp] theorem State.setDisp_stackDepth (s : State) (d : Display) : (s.setDisp d).stackDepth = s.stackDepth := rfl
@[simp] theorem State.setDisp_font (s : State) (d : Display) : (s.setDisp d).font = s.font := rfl
@[simp] theorem State.setDisp_byteAt (s : State) (d : Display) (a : Nat) : (s.setDisp d).byteAt a = s.byteAt a := rfl
@[simp] theorem State.setDisp_memWf (s : State) (d : Display) : (s.setDisp d).memWf = s.memWf := rfl
@[simp] theorem State.setDisp_getV (s : State) (d : Display) (x : Reg) : (s.setDisp d).getV x = s.getV x := rfl

@[simp] theorem State.setPc_mem (s : State) (w : Word) : (s.setPc w).mem = s.mem := rfl
@[simp] theorem State.setPc_disp (s : State) (w : Word) : (s.setPc w).disp = s.disp := rfl
@[simp] theorem State.setPc_pc (s : State) (w : Word) : (s.setPc w).pc = w := rfl
@[simp] theorem State.setPc_index (s : State) (w : Word) : (s.setPc w).index = s.index := rfl
@[simp] theorem State.setPc_stack (s : State) (w : Word) : (s.setPc w).stack = s.stack := rfl
@[simp] theorem State.setPc_v (s : State) (w : Word) : (s.setPc w).v = s.v := rfl
@[simp] theorem State.setPc_dt (s : State) (w : Word) : (s.setPc w).dt = s.dt := rfl
@[simp] theorem State.setPc_st (s : State) (w : Word) : (s.setPc w).st = s.st := rfl
@[simp] theorem State.setPc_key (s : State) (w : Word) : (s.setPc w).key = s.key := rfl
@[simp] theorem State.setPc_incPc (s : State) (w : Word) : (s.setPc w).incPc = s.incPc := rfl
@[simp] theorem State.setPc_draws (s : State) (w : Word) : (s.setPc w).draws = s.draws := rfl
@[simp] theorem State.setPc_stackDepth (s : State) (w : Word) : (s.setPc w).stackDepth = s.stackDepth := rfl
@[simp] theorem State.setPc_font (s : State) (w : Word) : (s.setPc w).font = s.font := rfl
@[simp] theorem State.setPc_byteAt (s : State) (w : Word) (a : Nat) : (s.setPc w).byteAt a = s.byteAt a := rfl
@[simp] theorem State.setPc_memWf (s : State) (w : Word) : (s.setPc w).memWf = s.memWf := rfl
@[simp] theorem State.setPc_getV (s : State) (w : Word) (x : Reg) : (s.setPc w).getV x = s.getV x := rfl

@[simp] theorem State.setIndex_mem (s : State) (w : Word) : (s.setIndex w).mem = s.mem := rfl
@[simp] theorem State.setIndex_disp (s : State) (w : Word) : (s.setIndex w).disp = s.disp := rfl
@[simp] theorem State.setIndex_pc (s : State) (w : Word) : (s.setIndex w).pc = s.pc := rfl
@[simp] theorem State.setIndex_index (s : State) (w : Word) : (s.setIndex w).index = w := rfl
@[simp] theorem State.setIndex_stack (s : State) (w : Word) : (s.setIndex w).stack = s.stack := rfl
@[simp] theorem State.setIndex_v (s : State) (w : Word) : (s.setIndex w).v = s.v := rfl
@[simp] theorem State.setIndex_dt (s : State) (w : Word) : (s.setIndex w).dt = s.dt := rfl
@[simp] theorem State.setIndex_st (s : State) (w : Word) : (s.setIndex w).st = s.st := rfl
@[simp] theorem State.setIndex_key (s : State) (w : Word) : (s.setIndex w).key = s.key := rfl
@[simp] theorem State.setIndex_incPc (s : State) (w : Word) : (s.setIndex w).incPc = s.incPc := rfl
@[simp] theorem State.setIndex_draws (s : State) (w : Word) : (s.setIndex w).draws = s.draws := rfl
@[simp] theorem State.setIndex_stackDepth (s : State) (w : Word) : (s.setIndex w).stackDepth = s.stackDepth := rfl
@[simp] theorem State.setIndex_font (s : State) (w : Word) : (s.setIndex w).font = s.font := rfl
@[simp] theorem State.setIndex_byteAt (s : State) (w : Word) (a : Nat) : (s.setIndex w).byteAt a = s.byteAt a := rfl
@[simp] theorem State.setIndex_memWf (s : State) (w : Word) : (s.setIndex w).memWf = s.memWf := rfl
@[simp] theorem State.setIndex_getV (s : State) (w : Word) (x : Reg) : (s.setIndex w).getV x = s.getV x := rfl

@[simp] theorem State.setStack_mem (s : State) (l : List Word) : (s.setStack l).mem = s.mem := rfl
@[simp] theorem State.setStack_disp (s : State) (l : List Word) : (s.setStack l).disp = s.disp := rfl
@[simp] theorem State.setStack_pc (s : State) (l : List Word) : (s.setStack l).pc = s.pc := rfl
@[simp] theorem State.setStack_index (s : State) (l : List Word) : (s.setStack l).index = s.index := rfl
@[simp] theorem State.setStack_stack (s : State) (l : List Word) : (s.setStack l).stack = l := rfl
@[simp] theorem State.setStack_v (s : State) (l : List Word) : (s.setStack l).v = s.v := rfl
@[simp] theorem State.setStack_dt (s : State) (l : List Word) : (s.setStack l).dt = s.dt := rfl
@[simp] theorem State.setStack_st (s : State) (l : List Word) : (s.setStack l).st = s.st := rfl
@[simp] theorem State.setStack_key (s : State) (l : List Word) : (s.setStack l).key = s.key := rfl
@[simp] theorem State.setStack_incPc (s : State) (l : List Word) : (s.setStack l).incPc = s.incPc := rfl
@[simp] theorem State.setStack_draws (s : State) (l : List Word) : (s.setStack l).draws = s.draws := rfl
@[simp] theorem State.setStack_stackDepth (s : State) (l : List Word) : (s.setStack l).stackDepth = s.stackDepth := rfl
@[simp] theorem State.setStack_font (s : State) (l : List Word) : (s.setStack l).font = s.font := rfl
@[simp] theorem State.setStack_byteAt (s : State) (l : List Word) (a : Nat) : (s.setStack l).byteAt a = s.byteAt a := rfl
@[simp] theorem State.setStack_memWf (s : State) (l : List Word) : (s.setStack l).memWf = s.memWf := rfl
@[simp] theorem State.setStack_getV (s : State) (l : List Word) (x : Reg) : (s.setStack l).getV x = s.getV x := rfl

@[simp] theorem State.setRegs_mem (s : State) (r : Vector Byte 16) : (s.setRegs r).mem = s.mem := rfl
@[simp] theorem State.setRegs_disp (s : State) (r : Vector Byte 16) : (s.setRegs r).disp = s.disp := rfl
@[simp] theorem State.setRegs_pc (s : State) (r : Vector Byte 16) : (s.setRegs r).pc = s.pc := rfl
@[simp] theorem State.setRegs_index (s : State) (r : Vector Byte 16) : (s.setRegs r).index = s.index := rfl
@[simp] theorem State.setRegs_stack (s : State) (r : Vector Byte 16) : (s.setRegs r).stack = s.stack := rfl
@[simp] theorem State.setRegs_v (s : State) (r : Vector Byte 16) : (s.setRegs r).v = r := rfl
@[simp] theorem State.setRegs_dt (s : State) (r : Vector Byte 16) : (s.setRegs r).dt = s.dt := rfl
@[simp] theorem State.setRegs_st (s : State) (r : Vector Byte 16) : (s.setRegs r).st = s.st := rfl
@[simp] theorem State.setRegs_key (s : State) (r : Vector Byte 16) : (s.setRegs r).key = s.key := rfl
@[simp] theorem State.setRegs_incPc (s : State) (r : Vector Byte 16) : (s.setRegs r).incPc = s.incPc := rfl
@[simp] theorem State.setRegs_draws (s : State) (r : Vector Byte 16) : (s.setRegs r).draws = s.draws := rfl
@[simp] theorem State.setRegs_stackDepth (s : State) (r : Vector Byte 16) : (s.setRegs r).stackDepth = s.stackDepth := rfl
@[simp] theorem State.setRegs_font (s : State) (r : Vector Byte 16) : (s.setRegs r).font = s.font := rfl
@[simp] theorem State.setRegs_byteAt (s : State) (r : Vector Byte 16) (a : Nat) : (s.setRegs r).byteAt a = s.byteAt a := rfl
@[simp] theorem State.setRegs_memWf (s : State) (r : Vector Byte 16) : (s.setRegs r).memWf = s.memWf := rfl

@[simp] theorem State.setDt_mem (s : State) (b : Byte) : (s.setDt b).mem = s.mem := rfl
@[simp] theorem State.setDt_disp (s : State) (b : Byte) : (s.setDt b).disp = s.disp := rfl
@[simp] theorem State.setDt_pc (s : State) (b : Byte) : (s.setDt b).pc = s.pc := rfl
@[simp] theorem State.setDt_index (s : State) (b : Byte) : (s.setDt b).index = s.index := rfl
@[simp] theorem State.setDt_stack (s : State) (b : Byte) : (s.setDt b).stack = s.stack := rfl
@[simp] theorem State.setDt_v (s : State) (b : Byte) : (s.setDt b).v = s.v := rfl
@[simp] theorem State.setDt_dt (s : State) (b : Byte) : (s.setDt b).dt = b := rfl
@[simp] theorem State.setDt_st (s : State) (b : Byte) : (s.setDt b).st = s.st := rfl
@[simp] theorem State.setDt_key (s : State) (b : Byte) : (s.setDt b).key = s.key := rfl
@[simp] theorem State.setDt_incPc (s : State) (b : Byte) : (s.setDt b).incPc = s.incPc := rfl
@[simp] theorem State.setDt_draws (s : State) (b : Byte) : (s.setDt b).draws = s.draws := rfl
@[simp] theorem State.setDt_stackDepth (s : State) (b : Byte) : (s.setDt b).stackDepth = s.stackDepth := rfl
@[simp] theorem State.setDt_font (s : State) (b : Byte) : (s.setDt b).font = s.font := rfl
@[simp] theorem State.setDt_byteAt (s : State) (b : Byte) (a : Nat) : (s.setDt b).byteAt a = s.byteAt a := rfl
@[simp] theorem State.setDt_memWf (s : State) (b : Byte) : (s.setDt b).memWf = s.memWf := rfl
@[simp] theorem State.setDt_getV (s : State) (b : Byte) (x : Reg) : (s.setDt b).getV x = s.getV x := rfl

@[simp] theorem State.setSt_mem (s : State) (b : Byte) : (s.setSt b).mem = s.mem := rfl
@[simp] theorem State.setSt_disp (s : State) (b : Byte) : (s.setSt b).disp = s.disp := rfl
@[simp] theorem State.setSt_pc (s : State) (b : Byte) : (s.setSt b).pc = s.pc := rfl
@[simp] theorem State.setSt_index (s : State) (b : Byte) : (s.setSt b).index = s.index := rfl
@[simp] theorem State.setSt_stack (s : State) (b : Byte) : (s.setSt b).stack = s.stack := rfl
@[simp] theorem State.setSt_v (s : State) (b : Byte) : (s.setSt b).v = s.v := rfl
@[simp] theorem State.setSt_dt (s : State) (b : Byte) : (s.setSt b).dt = s.dt := rfl
@[simp] theorem State.setSt_st (s : State) (b : Byte) : (s.setSt b).st = b := rfl
@[simp] theorem State.setSt_key (s : State) (b : Byte) : (s.setSt b).key = s.key := rfl
@[simp] theorem State.setSt_incPc (s : State) (b : Byte) : (s.setSt b).incPc = s.incPc := rfl
@[simp] theorem State.setSt_draws (s : State) (b : Byte) : (s.setSt b).draws = s.draws := rfl
@[simp] theorem State.setSt_stackDepth (s : State) (b : Byte) : (s.setSt b).stackDepth = s.stackDepth := rfl
@[simp] theorem State.setSt_font (s : State) (b : Byte) : (s.setSt b).font = s.font := rfl
@[simp] theorem State.setSt_byteAt (s : State) (b : Byte) (a : Nat) : (s.setSt b).byteAt a = s.byteAt a := rfl
@[simp] theorem State.setSt_memWf (s : State) (b : Byte) : (s.setSt b).memWf = s.memWf := rfl
@[simp] theorem State.setSt_getV (s : State) (b : Byte) (x : Reg) : (s.setSt b).getV x = s.getV x := rfl

@[simp] theorem State.setKey_mem (s : State) (k : Option Key) : (s.setKey k).mem = s.mem := rfl
@[simp] theorem State.setKey_disp (s : State) (k : Option Key) : (s.setKey k).disp = s.disp := rfl
@[simp] theorem State.setKey_pc (s : State) (k : Option Key) : (s.setKey k).pc = s.pc := rfl
@[simp] theorem State.setKey_index (s : State) (k : Option Key) : (s.setKey k).index = s.index := rfl
@[simp] theorem State.setKey_stack (s : State) (k : Option Key) : (s.setKey k).stack = s.stack := rfl
@[simp] theorem State.setKey_v (s : State) (k : Option Key) : (s.setKey k).v = s.v := rfl
@[simp] theorem State.setKey_dt (s : State) (k : Option Key) : (s.setKey k).dt = s.dt := rfl
@[simp] theorem State.setKey_st (s : State) (k : Option Key) : (s.setKey k).st = s.st := rfl
@[simp] theorem State.setKey_key (s : State) (k : Option Key) : (s.setKey k).key = k := rfl
@[simp] theorem State.setKey_incPc (s : State) (k : Option Key) : (s.setKey k).incPc = s.incPc := rfl
@[simp] theorem State.setKey_draws (s : State) (k : Option Key) : (s.setKey k).draws = s.draws := rfl
@[simp] theorem State.setKey_stackDepth (s : State) (k : Option Key) : (s.setKey k).stackDepth = s.stackDepth := rfl
@[simp] theorem State.setKey_font (s : State) (k : Option Key) : (s.setKey k).font = s.font := rfl
@[simp] theorem State.setKey_byteAt (s : State) (k : Option Key) (a : Nat) : (s.setKey k).byteAt a = s.byteAt a := rfl
@[simp] theorem State.setKey_memWf (s : State) (k : Option Key) : (s.setKey k).memWf = s.memWf := rfl
@[simp] theorem State.setKey_getV (s : State) (k : Option Key) (x : Reg) : (s.setKey k).getV x = s.getV x := rfl

@[simp] theorem State.setIncPc_mem (s : State) (b : Bool) : (s.setIncPc b).mem = s.mem := rfl
@[simp] theorem State.setIncPc_disp (s : State) (b : Bool) : (s.setIncPc b).disp = s.disp := rfl
@[simp] theorem State.setIncPc_pc (s : State) (b : Bool) : (s.setIncPc b).pc = s.pc := rfl
@[simp] theorem State.setIncPc_index (s : State) (b : Bool) : (s.setIncPc b).index = s.index := rfl
@[simp] theorem State.setIncPc_stack (s : State) (b : Bool) : (s.setIncPc b).stack = s.stack := rfl
@[simp] theorem State.setIncPc_v (s : State) (b : Bool) : (s.setIncPc b).v = s.v := rfl
@[simp] theorem State.setIncPc_dt (s : State) (b : Bool) : (s.setIncPc b).dt = s.dt := rfl
@[simp] theorem State.setIncPc_st (s : State) (b : Bool) : (s.setIncPc b).st = s.st := rfl
@[simp] theorem State.setIncPc_key (s : State) (b : Bool) : (s.setIncPc b).key = s.key := rfl
@[simp] theorem State.setIncPc_incPc (s : State) (b : Bool) : (s.setIncPc b).incPc = b := rfl
@[simp] theorem State.setIncPc_draws (s : State) (b : Bool) : (s.setIncPc b).draws = s.draws := rfl
@[simp] theorem State.setIncPc_stackDepth (s : State) (b : Bool) : (s.setIncPc b).stackDepth = s.stackDepth := rfl
@[simp] theorem State.setIncPc_font (s : State) (b : Bool) : (s.setIncPc b).font = s.font := rfl
@[simp] theorem State.setIncPc_byteAt (s : State) (b : Bool) (a : Nat) : (s.setIncPc b).byteAt a = s.byteAt a := rfl
@[simp] theorem State.setIncPc_memWf (s : State) (b : Bool) : (s.setIncPc b).memWf = s.memWf := rfl
@[simp] theorem State.setIncPc_getV (s : State) (b : Bool) (x : Reg) : (s.setIncPc b).getV x = s.getV x := rfl

@[simp] theorem State.setDraws_mem (s : State) (n : Nat) : (s.setDraws n).mem = s.mem := rfl
@[simp] theorem State.setDraws_disp (s : State) (n : Nat) : (s.setDraws n).disp = s.disp := rfl
@[simp] theorem State.setDraws_pc (s : State) (n : Nat) : (s.setDraws n).pc = s.pc := rfl
@[simp] theorem State.setDraws_index (s : State) (n : Nat) : (s.setDraws n).index = s.index := rfl
@[simp] theorem State.setDraws_stack (s : State) (n : Nat) : (s.setDraws n).stack = s.stack := rfl
@[simp] theorem State.setDraws_v (s : State) (n : Nat) : (s.setDraws n).v = s.v := rfl
@[simp] theorem State.setDraws_dt (s : State) (n : Nat) : (s.setDraws n).dt = s.dt := rfl
@[simp] theorem State.setDraws_st (s : State) (n : Nat) : (s.setDraws n).st = s.st := rfl
@[simp] theorem State.setDraws_key (s : State) (n : Nat) : (s.setDraws n).key = s.key := rfl
@[simp] theorem State.setDraws_incPc (s : State) (n : Nat) : (s.setDraws n).incPc = s.incPc := rfl
@[simp] theorem State.setDraws_draws (s : State) (n : Nat) : (s.setDraws n).draws = n := rfl
@[simp] theorem State.setDraws_stackDepth (s : State) (n : Nat) : (s.setDraws n).stackDepth = s.stackDepth := rfl
@[simp] theorem State.setDraws_font (s : State) (n : Nat) : (s.setDraws n).font = s.font := rfl
@[simp] theorem State.setDraws_byteAt (s : State) (n : Nat) (a : Nat) : (s.setDraws n).byteAt a = s.byteAt a := rfl
@[simp] theorem State.setDraws_memWf (s : State) (n : Nat) : (s.setDraws n).memWf = s.memWf := rfl
@[simp] theorem State.setDraws_getV (s : State) (n : Nat) (x : Reg) : (s.setDraws n).getV x = s.getV x := rfl

@[simp] theorem State.setV_mem (s : State) (x : Reg) (b : Byte) : (s.setV x b).mem = s.mem := rfl
@[simp] theorem State.setV_disp (s : State) (x : Reg) (b : Byte) : (s.setV x b).disp = s.disp := rfl
@[simp] theorem State.setV_pc (s : State) (x : Reg) (b : Byte) : (s.setV x b).pc = s.pc := rfl
@[simp] theorem State.setV_index (s : State) (x : Reg) (b : Byte) : (s.setV x b).index = s.index := rfl
@[simp] theorem State.setV_stack (s : State) (x : Reg) (b : Byte) : (s.setV x b).stack = s.stack := rfl
@[simp] theorem State.setV_dt (s : State) (x : Reg) (b : Byte) : (s.setV x b).dt = s.dt := rfl
@[simp] theorem State.setV_st (s : State) (x : Reg) (b : Byte) : (s.setV x b).st = s.st := rfl
@[simp] theorem State.setV_key (s : State) (x : Reg) (b : Byte) : (s.setV x b).key = s.key := rfl
@[simp] theorem State.setV_incPc (s : State) (x : Reg) (b : Byte) : (s.setV x b).incPc = s.incPc := rfl
@[simp] theorem State.setV_draws (s : State) (x : Reg) (b : Byte) : (s.setV x b).draws = s.draws := rfl
@[simp] theorem State.setV_stackDepth (s : State) (x : Reg) (b : Byte) : (s.setV x b).stackDepth = s.stackDepth := rfl
@[simp] theorem State.setV_font (s : State) (x : Reg) (b : Byte) : (s.setV x b).font = s.font := rfl
@[simp] theorem State.setV_byteAt (s : State) (x : Reg) (b : Byte) (a : Nat) : (s.setV x b).byteAt a = s.byteAt a := rfl
@[simp] theorem State.setV_memWf (s : State) (x : Reg) (b : Byte) : (s.setV x b).memWf = s.memWf := rfl

@[simp] theorem State.setV_v (s : State) (x : Reg) (b : Byte) : (s.setV x b).v = s.v.set x.val b := rfl

@[simp] theorem State.setRegs_getV (s : State) (r : Vector Byte 16) (x : Reg) : (s.setRegs r).getV x = r[x.val] := rfl

@[simp] theorem State.storeBytes_disp (s : State) (a : Nat) (bs : List Byte) : (s.storeBytes a bs).disp = s.disp := rfl
@[simp] theorem State.storeBytes_pc (s : State) (a : Nat) (bs : List Byte) : (s.storeBytes a bs).pc = s.pc := rfl
@[simp] theorem State.storeBytes_index (s : State) (a : Nat) (bs : List Byte) : (s.storeBytes a bs).index = s.index := rfl
@[simp] theorem State.storeBytes_stack (s : State) (a : Nat) (bs : List Byte) : (s.storeBytes a bs).stack = s.stack := rfl
@[simp] theorem State.storeBytes_v (s : State) (a : Nat) (bs : List Byte) : (s.storeBytes a bs).v = s.v := rfl
@[simp] theorem State.storeBytes_dt (s : State) (a : Nat) (bs : List Byte) : (s.storeBytes a bs).dt = s.dt := rfl
@[simp] theorem State.storeBytes_st (s : State) (a : Nat) (bs : List Byte) : (s.storeBytes a bs).st = s.st := rfl
@[simp] theorem State.storeBytes_key (s : State) (a : Nat) (bs : List Byte) : (s.storeBytes a bs).key = s.key := rfl
@[simp] theorem State.storeBytes_incPc (s : State) (a : Nat) (bs : List Byte) : (s.storeBytes a bs).incPc = s.incPc := rfl
@[simp] theorem State.storeBytes_draws (s : State) (a : Nat) (bs : List Byte) : (s.storeBytes a bs).draws = s.draws := rfl
@[simp] theorem State.storeBytes_stackDepth (s : State) (a : Nat) (bs : List Byte) : (s.storeBytes a bs).stackDepth = s.stackDepth := rfl
@[simp] theorem State.storeBytes_font (s : State) (a : Nat) (bs : List Byte) : (s.storeBytes a bs).font = s.font := rfl
@[simp] theorem State.storeBytes_getV (s : State) (a : Nat) (bs : List Byte) (x : Reg) : (s.storeBytes a bs).getV x = s.getV x :=
  rfl

/-- A register reads the last value written to it and is left alone by a write to another. -/
theorem State.getV_setV (s : State) (x y : Reg) (b : Byte) :
    (s.setV x b).getV y = if y = x then b else s.getV y := by
  simp only [State.getV, State.setV_v, Vector.getElem_set]
  by_cases h : y = x
  · simp [h]
  · have : x.val ≠ y.val := fun e => h (Fin.ext e.symm)
    simp [h, this]

@[simp] theorem State.getV_setV_same (s : State) (x : Reg) (b : Byte) : (s.setV x b).getV x = b := by
  simp [State.getV_setV]

theorem State.getV_setV_ne (s : State) {x y : Reg} (b : Byte) (h : y ≠ x) : (s.setV x b).getV y = s.getV y := by
  simp [State.getV_setV, h]

/-- At reset every variable register is zero (70_reset R230). -/
@[simp] theorem State.resetWith_getV (f : Font) (depth : Option Nat) (x : Reg) : (State.resetWith f depth).getV x = 0 := by
  simp [State.getV, State.resetWith]

@[simp] theorem State.reset_getV (x : Reg) : State.reset.getV x = 0 := State.resetWith_getV _ _ x

end Sys2Proof.Machine
end

