-- ==== Sys2Proof/Laws/Ops.lean ====
section
/-! SUPPORT. One lemma per shared operation, saying once everything it can do: cite it instead of unfolding the operation. -/

namespace Sys2Proof.Machine

/-! ### Ending an operation -/

@[simp] theorem raise_eq (f : Fault) : raise f = .fault f := rfl

@[simp] theorem andThen_next (t : State) (k : State → Result) : andThen (.next t) k = k t := rfl

@[simp] theorem andThen_fault (f : Fault) (k : State → Result) : andThen (.fault f) k = .fault f := rfl

/-- What a composed operation that answers a next state went through. -/
theorem andThen_eq_next {o : Result} {k : State → Result} {t : State} (h : andThen o k = .next t) :
    ∃ u, o = .next u ∧ k u = .next t := by
  cases o with
  | next u => exact ⟨u, rfl, h⟩
  | fault f => cases h
  | refused r => cases h

/-- The range check passes exactly when no cell is touched or the last one exists. -/
theorem checkRange_of_le {first len : Nat} {f : Fault} {k : Result} (h : first + len ≤ Config.memTop + 1) :
    checkRange first len f k = k := if_neg (by omega)

theorem checkRange_zero (first : Nat) (f : Fault) (k : Result) : checkRange first 0 f k = k := if_neg (by omega)

theorem checkRange_of_gt {first len : Nat} {f : Fault} {k : Result} (h0 : 0 < len) (h : Config.memTop < first + len - 1) :
    checkRange first len f k = .fault f := if_pos ⟨h0, h⟩

/-- A range check that answers a next state passed, and its continuation answered it. -/
theorem checkRange_eq_next {first len : Nat} {f : Fault} {k : Result} {t : State} (h : checkRange first len f k = .next t) :
    (len = 0 ∨ first + len ≤ Config.memTop + 1) ∧ k = .next t := by
  unfold checkRange at h
  split at h
  · cases h
  · exact ⟨by omega, h⟩

/-! ### Memory of the state -/

/-- After the reset every cell holds its reset contents (R230). -/
@[simp] theorem State.resetWith_byteAt (f : Font) (depth : Option Nat) (a : Nat) :
    (State.resetWith f depth).byteAt a = Memory.unlisted f a := rfl

/-- A store leaves every cell outside it alone; no canonical form is needed. -/
theorem State.storeBytes_byteAt_outside (s : State) (a b : Nat) (bs : List Byte) (h : b < a ∨ a + bs.length ≤ b) :
    (s.storeBytes a bs).byteAt b = s.byteAt b := Memory.read_writeAll_outside _ _ _ _ h

/-- A store in range reads back, byte for byte. -/
theorem State.storeBytes_byteAt_inside {s : State} (hs : s.memWf = true) {a : Nat} {bs : List Byte}
    (ha : a + bs.length ≤ Config.memTop + 1) (k : Nat) (hk : k < bs.length) :
    (s.storeBytes a bs).byteAt (a + k) = bs[k] := Memory.read_writeAll_inside hs ha k hk

/-- A store in range keeps the canonical form. -/
theorem State.storeBytes_memWf {s : State} (hs : s.memWf = true) {a : Nat} {bs : List Byte}
    (ha : a + bs.length ≤ Config.memTop + 1) : (s.storeBytes a bs).memWf = true := Memory.writeAll_wf hs ha

/-! ### Stack -/

theorem push_of_room {w : Word} {s : State} (h : s.stackDepth ≠ some s.stack.length) :
    push w s = .next (s.setStack (s.stack ++ [w])) := if_neg h

theorem push_of_full {w : Word} {s : State} (h : s.stackDepth = some s.stack.length) :
    push w s = .fault (.stackOverflow s.pc) := if_pos h

theorem push_eq_next {w : Word} {s t : State} (h : push w s = .next t) :
    s.stackDepth ≠ some s.stack.length ∧ t = s.setStack (s.stack ++ [w]) := by
  unfold push at h
  split at h
  · cases h
  · next hne => cases h; exact ⟨hne, rfl⟩

theorem popPc_of_empty {s : State} (h : s.stack = []) : popPc s = .fault (.stackUnderflow s.pc) := by
  simp [popPc, h]

theorem popPc_of_newest {s : State} {l : List Word} {e : Word} (h : s.stack = l ++ [e]) :
    popPc s = .next ((s.setStack l).setPc e) := by
  simp [popPc, h]

theorem popPc_eq_next {s t : State} (h : popPc s = .next t) :
    ∃ l e, s.stack = l ++ [e] ∧ t = (s.setStack l).setPc e := by
  rcases List.eq_nil_or_concat' s.stack with hs | ⟨l, e, hs⟩
  · rw [popPc_of_empty hs] at h; cases h
  · rw [popPc_of_newest hs] at h; cases h; exact ⟨l, e, hs, rfl⟩

/-! ### Program counter -/

theorem skipIf_true (s : State) : skipIf true s = s.setPc (s.pc + 2) := rfl

theorem skipIf_false (s : State) : skipIf false s = s := rfl

/-- A skip writes `pc` alone. -/
theorem skipIf_eq (taken : Bool) (s : State) : skipIf taken s = s.setPc (if taken then s.pc + 2 else s.pc) := by
  cases taken <;> rfl

/-- Advance writes `pc` and `inc_pc` alone. -/
theorem advance_eq (s : State) :
    advance s = (s.setPc (if s.incPc then s.pc + 2 else s.pc)).setIncPc true := by
  unfold advance
  cases s.incPc <;> rfl

theorem fetch_ok {s : State} (h : s.pc.toNat ≤ 0x0FFE) : fetch s = .ok (s.wordAt s.pc.toNat) :=
  if_neg (by omega)

theorem fetch_error {s : State} (h : 0x0FFE < s.pc.toNat) : fetch s = .error (.fetchOutOfRange s.pc) := if_pos h

theorem fetch_eq_ok {s : State} {op : Word} (h : fetch s = .ok op) :
    s.pc.toNat ≤ 0x0FFE ∧ op = s.wordAt s.pc.toNat := by
  unfold fetch at h
  split at h
  · cases h
  · cases h; exact ⟨by omega, rfl⟩

/-! ### Operands and flags -/

theorem addrWord_toNat (nnn : Addr12) : (addrWord nnn).toNat = nnn.toNat := by
  have := nnn.isLt
  simp [addrWord, BitVec.toNat_setWidth]; omega

theorem byteWord_toNat (b : Byte) : (byteWord b).toNat = b.toNat := by
  have := b.isLt
  simp [byteWord, BitVec.toNat_setWidth]
  omega

theorem blockOf_length (s : State) (x : Reg) : (blockOf s x).length = blockLen x := by
  simp [blockOf, blockLen]

theorem blockOf_getElem (s : State) (x : Reg) (k : Nat) (hk : k < (blockOf s x).length) (h16 : k < 16) :
    (blockOf s x)[k] = s.getV ⟨k, h16⟩ := by
  simp [blockOf, State.getV]

/-- The block load writes V0 to Vx from memory and leaves the rest (R145). -/
theorem blockFrom_getElem (s : State) (x k : Reg) :
    (blockFrom s x)[k.val] = if k ≤ x then s.byteAt (dataAddr s k.val) else s.getV k := by
  simp [blockFrom]

/-- The result goes to Vx and the flag to VF, the flag last (R85). -/
theorem setResultFlag_getV (s : State) (x y : Reg) (r f : Byte) :
    (setResultFlag s x r f).getV y = if y = vf then f else if y = x then r else s.getV y := by
  simp [setResultFlag, State.getV_setV]

@[simp] theorem flagByte_true : flagByte true = 1 := rfl

@[simp] theorem flagByte_false : flagByte false = 0 := rfl

/-! ### Display -/

theorem Display.pixel_setPixel (d : Display) (r r' : Fin 32) (c c' : Fin 64) (b : Bool) :
    Display.pixel (Display.setPixel d r c b) r' c' = if r' = r ∧ c' = c then b else Display.pixel d r' c' := by
  unfold Display.pixel Display.setPixel
  rw [Vector.getElem_set]
  by_cases hr : r' = r
  · subst hr
    simp only [if_true, true_and]
    rw [Vector.getElem_set]
    by_cases hc : c' = c
    · simp [hc]
    · have : c.val ≠ c'.val := fun e => hc (Fin.ext e.symm)
      simp [hc, this]
  · have : r.val ≠ r'.val := fun e => hr (Fin.ext e.symm)
    simp [hr, this]

@[simp] theorem Display.pixel_clear (r : Fin 32) (c : Fin 64) : Display.pixel Display.clear r c = false := by
  simp [Display.pixel, Display.clear]

/-- A set sprite bit flips its one pixel and adds to the collision what the pixel held (R161). -/
theorem xorPixel_pixel (p : Display × Bool) (r r' : Fin 32) (c c' : Fin 64) :
    Display.pixel (xorPixel p r c).1 r' c' = (Display.pixel p.1 r' c' ^^ decide (r' = r ∧ c' = c)) := by
  unfold xorPixel
  by_cases h : r' = r ∧ c' = c
  · obtain ⟨rfl, rfl⟩ := h
    cases hp : Display.pixel p.1 r' c' <;> simp [Display.pixel_setPixel]
  · cases hp : Display.pixel p.1 r c <;> simp [Display.pixel_setPixel, h]

theorem xorPixel_hit (p : Display × Bool) (r : Fin 32) (c : Fin 64) :
    (xorPixel p r c).2 = (p.2 || Display.pixel p.1 r c) := by
  unfold xorPixel
  cases hp : Display.pixel p.1 r c <;> simp

end Sys2Proof.Machine
end

