-- ==== Sys2Proof/Laws/Display.lean ====
section
/-! SUPPORT. What drawing does to a pixel and to the collision, row by row and for a whole sprite (44_display R161, R162). -/

namespace Sys2Proof.Machine

/-- Eight neighbouring columns are distinct. -/
theorem pixelCol_inj {px a b : Nat} (ha : a < 8) (hb : b < 8) (h : pixelCol px a = pixelCol px b) : a = b := by
  have := congrArg Fin.val h
  simp only [pixelCol] at this
  omega

/-- Up to 32 neighbouring rows are distinct. -/
theorem pixelRow_inj {py a b : Nat} (ha : a < 32) (hb : b < 32) (h : pixelRow py a = pixelRow py b) : a = b := by
  have := congrArg Fin.val h
  simp only [pixelRow] at this
  omega

/-- The first `k` bits of a sprite row. -/
def drawBits (byte : Byte) (px : Nat) (r : Fin 32) (k : Nat) (p : Display × Bool) : Display × Bool :=
  (List.range k).foldl (fun p bit => if spriteBit byte bit then xorPixel p r (pixelCol px bit) else p) p

theorem drawBits_succ (byte : Byte) (px : Nat) (r : Fin 32) (k : Nat) (p : Display × Bool) :
    drawBits byte px r (k + 1) p =
      if spriteBit byte k then xorPixel (drawBits byte px r k p) r (pixelCol px k) else drawBits byte px r k p := by
  simp [drawBits, List.range_succ]

/-- A set bit of the first `k` of a sprite row drawn at display row `r` lies on the pixel. -/
def rowHas (byte : Byte) (px : Nat) (r : Fin 32) (k : Nat) (r' : Fin 32) (c' : Fin 64) : Prop :=
  r' = r ∧ ∃ b, b < k ∧ spriteBit byte b = true ∧ c' = pixelCol px b

theorem rowHas_succ (byte : Byte) (px : Nat) (r : Fin 32) (k : Nat) (r' : Fin 32) (c' : Fin 64) :
    rowHas byte px r (k + 1) r' c' ↔
      rowHas byte px r k r' c' ∨ (spriteBit byte k = true ∧ r' = r ∧ c' = pixelCol px k) := by
  constructor
  · rintro ⟨hr, b, hb, h1, h2⟩
    rcases Nat.lt_succ_iff_lt_or_eq.mp hb with hlt | rfl
    · exact Or.inl ⟨hr, b, hlt, h1, h2⟩
    · exact Or.inr ⟨h1, hr, h2⟩
  · rintro (⟨hr, b, hb, h⟩ | ⟨h1, hr, h2⟩)
    · exact ⟨hr, b, by omega, h⟩
    · exact ⟨hr, k, by omega, h1, h2⟩

/-- A new bit lies on no pixel of the bits before it. -/
theorem not_rowHas_pixelCol (byte : Byte) (px : Nat) (r : Fin 32) (k : Nat) (hk : k < 8) (r' : Fin 32) :
    ¬ rowHas byte px r k r' (pixelCol px k) := by
  rintro ⟨-, b, hb, -, h⟩
  have := pixelCol_inj hk (by omega) h
  omega

/-- A pixel after the first `k` bits: flipped iff one of them is set and lies on it. -/
theorem drawBits_pixel (byte : Byte) (px : Nat) (r r' : Fin 32) (c' : Fin 64) (p : Display × Bool) :
    ∀ k, k ≤ 8 →
      (rowHas byte px r k r' c' → Display.pixel (drawBits byte px r k p).1 r' c' = !Display.pixel p.1 r' c') ∧
      (¬ rowHas byte px r k r' c' → Display.pixel (drawBits byte px r k p).1 r' c' = Display.pixel p.1 r' c') := by
  intro k
  induction k with
  | zero => exact fun _ => ⟨fun ⟨_, _, h, _⟩ => absurd h (Nat.not_lt_zero _), fun _ => rfl⟩
  | succ k ih =>
    intro hk
    obtain ⟨ih1, ih2⟩ := ih (by omega)
    rw [drawBits_succ, rowHas_succ]
    by_cases hs : spriteBit byte k = true
    · rw [if_pos hs, xorPixel_pixel]
      by_cases hrc : r' = r ∧ c' = pixelCol px k
      · have hno : ¬ rowHas byte px r k r' c' := by
          rw [hrc.2]; exact not_rowHas_pixelCol byte px r k (by omega) r'
        rw [decide_eq_true hrc, ih2 hno]
        exact ⟨fun _ => Bool.xor_true _, fun h => absurd (Or.inr ⟨hs, hrc⟩) h⟩
      · rw [decide_eq_false hrc, Bool.xor_false]
        exact ⟨fun h => ih1 (h.resolve_right fun h' => hrc h'.2), fun h => ih2 fun h' => h (Or.inl h')⟩
    · rw [if_neg hs]
      exact ⟨fun h => ih1 (h.resolve_right fun h' => hs h'.1), fun h => ih2 fun h' => h (Or.inl h')⟩

/-- The collision after the first `k` bits: one of them is set and met a pixel that was on before the row. -/
theorem drawBits_hit (byte : Byte) (px : Nat) (r : Fin 32) (p : Display × Bool) :
    ∀ k, k ≤ 8 → ((drawBits byte px r k p).2 = true ↔
      p.2 = true ∨ ∃ b, b < k ∧ spriteBit byte b = true ∧ Display.pixel p.1 r (pixelCol px b) = true) := by
  intro k
  induction k with
  | zero => intro _; simp [drawBits]
  | succ k ih =>
    intro hk
    have ih := ih (by omega)
    have hsplit : (∃ b, b < k + 1 ∧ spriteBit byte b = true ∧ Display.pixel p.1 r (pixelCol px b) = true) ↔
        (∃ b, b < k ∧ spriteBit byte b = true ∧ Display.pixel p.1 r (pixelCol px b) = true) ∨
        (spriteBit byte k = true ∧ Display.pixel p.1 r (pixelCol px k) = true) := by
      constructor
      · rintro ⟨b, hb, h⟩
        rcases Nat.lt_succ_iff_lt_or_eq.mp hb with hlt | rfl
        · exact Or.inl ⟨b, hlt, h⟩
        · exact Or.inr h
      · rintro (⟨b, hb, h⟩ | h)
        · exact ⟨b, by omega, h⟩
        · exact ⟨k, by omega, h⟩
    rw [drawBits_succ, hsplit]
    by_cases hs : spriteBit byte k = true
    · rw [if_pos hs, xorPixel_hit, Bool.or_eq_true, ih,
        (drawBits_pixel byte px r r _ p k (by omega)).2 (not_rowHas_pixelCol byte px r k (by omega) r)]
      simp only [hs, true_and, or_assoc]
    · rw [if_neg hs, ih]
      simp only [hs, false_and, or_false, Bool.false_eq_true]

/-- One sprite row flips exactly the pixels of its set bits. -/
theorem drawRow_pixel (byte : Byte) (px : Nat) (r r' : Fin 32) (c' : Fin 64) (p : Display × Bool) :
    (rowHas byte px r 8 r' c' → Display.pixel (drawRow byte px r p).1 r' c' = !Display.pixel p.1 r' c') ∧
    (¬ rowHas byte px r 8 r' c' → Display.pixel (drawRow byte px r p).1 r' c' = Display.pixel p.1 r' c') :=
  drawBits_pixel byte px r r' c' p 8 (Nat.le_refl 8)

theorem drawRow_hit (byte : Byte) (px : Nat) (r : Fin 32) (p : Display × Bool) :
    (drawRow byte px r p).2 = true ↔
      p.2 = true ∨ ∃ b, b < 8 ∧ spriteBit byte b = true ∧ Display.pixel p.1 r (pixelCol px b) = true :=
  drawBits_hit byte px r p 8 (Nat.le_refl 8)

theorem drawSprite_succ (rows : Nat → Byte) (px py k : Nat) (p : Display × Bool) :
    drawSprite rows px py (k + 1) p =
      drawRow (rows k) px (pixelRow py k) (drawSprite rows px py k p) := by
  simp [drawSprite, List.range_succ]

/-- A set bit of the first `k` sprite rows lies on the pixel. -/
def spriteHas (rows : Nat → Byte) (px py k : Nat) (r : Fin 32) (c : Fin 64) : Prop :=
  ∃ row b, row < k ∧ b < 8 ∧ r = pixelRow py row ∧ c = pixelCol px b ∧ spriteBit (rows row) b = true

theorem spriteHas_succ (rows : Nat → Byte) (px py k : Nat) (r : Fin 32) (c : Fin 64) :
    spriteHas rows px py (k + 1) r c ↔ spriteHas rows px py k r c ∨
      rowHas (rows k) px (pixelRow py k) 8 r c := by
  constructor
  · rintro ⟨row, b, hrow, hb, h1, h2, h3⟩
    rcases Nat.lt_succ_iff_lt_or_eq.mp hrow with hlt | rfl
    · exact Or.inl ⟨row, b, hlt, hb, h1, h2, h3⟩
    · exact Or.inr ⟨h1, b, hb, h3, h2⟩
  · rintro (⟨row, b, hrow, h⟩ | ⟨h1, b, hb, h3, h2⟩)
    · exact ⟨row, b, by omega, h⟩
    · exact ⟨k, b, by omega, hb, h1, h2, h3⟩

/-- A new sprite row lies on no row drawn before it. -/
theorem not_spriteHas_pixelRow (rows : Nat → Byte) (px py k : Nat) (hk : k < 32) (c : Fin 64) :
    ¬ spriteHas rows px py k (pixelRow py k) c := by
  rintro ⟨row, b, hrow, -, h, -⟩
  have := pixelRow_inj (by omega) (by omega) h
  omega

/-- The pixel law of R162: a sprite flips exactly the pixels under its set bits. -/
theorem drawSprite_pixel (rows : Nat → Byte) (px py : Nat) (r : Fin 32) (c : Fin 64) (p : Display × Bool) :
    ∀ k, k ≤ 32 →
      (spriteHas rows px py k r c → Display.pixel (drawSprite rows px py k p).1 r c = !Display.pixel p.1 r c) ∧
      (¬ spriteHas rows px py k r c → Display.pixel (drawSprite rows px py k p).1 r c = Display.pixel p.1 r c) := by
  intro k
  induction k with
  | zero => exact fun _ => ⟨fun ⟨_, _, h, _⟩ => absurd h (Nat.not_lt_zero _), fun _ => rfl⟩
  | succ k ih =>
    intro hk
    obtain ⟨ih1, ih2⟩ := ih (by omega)
    obtain ⟨hr1, hr2⟩ := drawRow_pixel (rows k) px (pixelRow py k) r c (drawSprite rows px py k p)
    rw [drawSprite_succ, spriteHas_succ]
    by_cases hrow : rowHas (rows k) px (pixelRow py k) 8 r c
    · have hno : ¬ spriteHas rows px py k r c := by
        rw [hrow.1]; exact not_spriteHas_pixelRow rows px py k (by omega) c
      exact ⟨fun _ => by rw [hr1 hrow, ih2 hno], fun h => absurd (Or.inr hrow) h⟩
    · rw [hr2 hrow]
      exact ⟨fun h => ih1 (h.resolve_right hrow), fun h => ih2 fun h' => h (Or.inl h')⟩

/-- The collision of R162: a set bit met a pixel that was on before the sprite. -/
theorem drawSprite_hit (rows : Nat → Byte) (px py : Nat) (p : Display × Bool) :
    ∀ k, k ≤ 32 → ((drawSprite rows px py k p).2 = true ↔
      p.2 = true ∨ ∃ r c, spriteHas rows px py k r c ∧ Display.pixel p.1 r c = true) := by
  intro k
  induction k with
  | zero =>
    intro _
    exact ⟨Or.inl, fun h => h.resolve_right fun ⟨_, _, ⟨_, _, h, _⟩, _⟩ => Nat.not_lt_zero _ h⟩
  | succ k ih =>
    intro hk
    rw [drawSprite_succ, drawRow_hit, ih (by omega), or_assoc]
    refine or_congr_right ?_
    constructor
    · rintro (⟨r, c, h, hp⟩ | ⟨b, hb, hs, hp⟩)
      · exact ⟨r, c, (spriteHas_succ ..).mpr (Or.inl h), hp⟩
      · refine ⟨pixelRow py k, pixelCol px b, (spriteHas_succ ..).mpr (Or.inr ⟨rfl, b, hb, hs, rfl⟩), ?_⟩
        rwa [(drawSprite_pixel rows px py _ _ p k (by omega)).2
          (not_spriteHas_pixelRow rows px py k (by omega) _)] at hp
    · rintro ⟨r, c, h, hp⟩
      rcases (spriteHas_succ ..).mp h with h | ⟨rfl, b, hb, hs, rfl⟩
      · exact Or.inl ⟨r, c, h, hp⟩
      · refine Or.inr ⟨b, hb, hs, ?_⟩
        rwa [(drawSprite_pixel rows px py _ _ p k (by omega)).2
          (not_spriteHas_pixelRow rows px py k (by omega) _)]

end Sys2Proof.Machine
end

