-- ==== Sys2Proof/Laws/Frame.lean ====
section
/-! SUPPORT. Frames: how they compose, and the frame of each named update and shared operation. -/

namespace Sys2Proof

open Machine

theorem Part.same_refl (p : Part) (s : State) : p.same s s := by cases p <;> rfl

theorem Part.same_trans {p : Part} {s t u : State} (h : p.same s t) (h' : p.same t u) : p.same s u := by
  cases p <;> exact Eq.trans h' h

theorem UnchangedBut.refl (changed : Part → Prop) (s : State) : UnchangedBut changed s s := fun p _ => p.same_refl s

/-- A frame that allows more holds as well. -/
theorem UnchangedBut.mono {changed changed' : Part → Prop} {s t : State} (h : UnchangedBut changed s t)
    (hc : ∀ p, changed p → changed' p) : UnchangedBut changed' s t := fun p hp => h p fun hq => hp (hc p hq)

theorem UnchangedBut.trans {changed : Part → Prop} {s t u : State} (h : UnchangedBut changed s t)
    (h' : UnchangedBut changed t u) : UnchangedBut changed s u := fun p hp => Part.same_trans (h p hp) (h' p hp)

theorem unchanged_setPc (s : State) (w : Word) : UnchangedBut (fun p => p = .pc) s (s.setPc w) := by
  intro p hp; cases p <;> first | exact absurd rfl hp | rfl

theorem unchanged_setIndex (s : State) (w : Word) : UnchangedBut (fun p => p = .index) s (s.setIndex w) := by
  intro p hp; cases p <;> first | exact absurd rfl hp | rfl

theorem unchanged_setStack (s : State) (l : List Word) : UnchangedBut (fun p => p = .stack) s (s.setStack l) := by
  intro p hp; cases p <;> first | exact absurd rfl hp | rfl

theorem unchanged_setDt (s : State) (b : Byte) : UnchangedBut (fun p => p = .dt) s (s.setDt b) := by
  intro p hp; cases p <;> first | exact absurd rfl hp | rfl

theorem unchanged_setSt (s : State) (b : Byte) : UnchangedBut (fun p => p = .st) s (s.setSt b) := by
  intro p hp; cases p <;> first | exact absurd rfl hp | rfl

theorem unchanged_setKey (s : State) (k : Option Key) : UnchangedBut (fun p => p = .key) s (s.setKey k) := by
  intro p hp; cases p <;> first | exact absurd rfl hp | rfl

theorem unchanged_setIncPc (s : State) (b : Bool) : UnchangedBut (fun p => p = .incPc) s (s.setIncPc b) := by
  intro p hp; cases p <;> first | exact absurd rfl hp | rfl

theorem unchanged_setDraws (s : State) (n : Nat) : UnchangedBut (fun p => p = .draws) s (s.setDraws n) := by
  intro p hp; cases p <;> first | exact absurd rfl hp | rfl

theorem unchanged_setV (s : State) (x : Reg) (b : Byte) : UnchangedBut (fun p => p = .reg x) s (s.setV x b) := by
  intro p hp
  by_cases hr : ∃ k, p = .reg k
  · obtain ⟨k, rfl⟩ := hr
    exact State.getV_setV_ne s b fun e => hp (by rw [e])
  · cases p <;> first | exact absurd ⟨_, rfl⟩ hr | rfl

theorem unchanged_setRegs (s : State) (r : Vector Byte 16) : UnchangedBut (fun p => ∃ k, p = .reg k) s (s.setRegs r) := by
  intro p hp; cases p <;> first | exact absurd ⟨_, rfl⟩ hp | rfl

theorem unchanged_setDisp (s : State) (d : Display) : UnchangedBut (fun p => ∃ r c, p = .pixel r c) s (s.setDisp d) := by
  intro p hp; cases p <;> first | exact absurd ⟨_, _, rfl⟩ hp | rfl

/-- A run of stores writes its own cells alone. -/
theorem unchanged_storeBytes (s : State) (a : Nat) (bs : List Byte) :
    UnchangedBut (fun p => ∃ k, k < bs.length ∧ p = .cell (a + k)) s (s.storeBytes a bs) := by
  intro p hp
  by_cases hc : ∃ b, p = .cell b
  · obtain ⟨b, rfl⟩ := hc
    refine State.storeBytes_byteAt_outside _ _ _ _ ?_
    by_cases h1 : b < a
    · exact Or.inl h1
    · refine Or.inr (Nat.le_of_not_lt fun h2 => hp ⟨b - a, by omega, ?_⟩)
      rw [Nat.add_sub_cancel' (by omega)]
  · cases p <;> first | exact absurd ⟨_, rfl⟩ hc | rfl

/-- The block load writes V0 to Vx alone. -/
theorem unchanged_blockFrom (s : State) (x : Reg) :
    UnchangedBut (fun p => ∃ k : Reg, k ≤ x ∧ p = .reg k) s (s.setRegs (blockFrom s x)) := by
  intro p hp
  by_cases hr : ∃ k, p = .reg k
  · obtain ⟨k, rfl⟩ := hr
    have hk : ¬ k ≤ x := fun h => hp ⟨k, h, rfl⟩
    exact (blockFrom_getElem s x k).trans (if_neg hk)
  · exact unchanged_setRegs s _ p hr

theorem unchanged_setResultFlag (s : State) (x : Reg) (r f : Byte) :
    UnchangedBut (fun p => p = .reg x ∨ p = .reg vf) s (setResultFlag s x r f) :=
  ((unchanged_setV s x r).mono fun _ h => Or.inl h).trans ((unchanged_setV _ vf f).mono fun _ h => Or.inr h)

theorem unchanged_jumpTo (s : State) (w : Word) : UnchangedBut (fun p => p = .pc ∨ p = .incPc) s (jumpTo w s) :=
  ((unchanged_setPc s w).mono fun _ h => Or.inl h).trans ((unchanged_setIncPc _ false).mono fun _ h => Or.inr h)

theorem unchanged_skipIf (s : State) (b : Bool) : UnchangedBut (fun p => p = .pc) s (skipIf b s) := by
  rw [skipIf_eq]; exact unchanged_setPc _ _

theorem unchanged_advance (s : State) : UnchangedBut (fun p => p = .pc ∨ p = .incPc) s (advance s) := by
  rw [advance_eq]
  exact ((unchanged_setPc s _).mono fun _ h => Or.inl h).trans ((unchanged_setIncPc _ true).mono fun _ h => Or.inr h)

end Sys2Proof
end

