-- ==== Sys2Proof/Laws/PerInstr.lean ====
section
/-! SUPPORT. A family of statements, one per instruction: the opcode the encoder writes matches the mask and match of the
instruction's own row of the opcode map (30_encoding R64, opcode_table.json). -/

namespace Sys2Proof.Laws

/-- The `mask` and `match` columns of the instruction's row (R64). -/
def RowMatch.row : Instr → Word × Word
  | .cls => (0xFFFF, 0x00E0)
  | .ret => (0xFFFF, 0x00EE)
  | .jp _ => (0xF000, 0x1000)
  | .call _ => (0xF000, 0x2000)
  | .seImm _ _ => (0xF000, 0x3000)
  | .sneImm _ _ => (0xF000, 0x4000)
  | .seReg _ _ => (0xF00F, 0x5000)
  | .ldImm _ _ => (0xF000, 0x6000)
  | .addImm _ _ => (0xF000, 0x7000)
  | .ldReg _ _ => (0xF00F, 0x8000)
  | .orReg _ _ => (0xF00F, 0x8001)
  | .andReg _ _ => (0xF00F, 0x8002)
  | .xorReg _ _ => (0xF00F, 0x8003)
  | .addReg _ _ => (0xF00F, 0x8004)
  | .subReg _ _ => (0xF00F, 0x8005)
  | .shr _ _ => (0xF00F, 0x8006)
  | .subnReg _ _ => (0xF00F, 0x8007)
  | .shl _ _ => (0xF00F, 0x800E)
  | .sneReg _ _ => (0xF00F, 0x9000)
  | .ldI _ => (0xF000, 0xA000)
  | .jpV0 _ => (0xF000, 0xB000)
  | .rnd _ _ => (0xF000, 0xC000)
  | .drw _ _ _ => (0xF000, 0xD000)
  | .skp _ => (0xF0FF, 0xE09E)
  | .sknp _ => (0xF0FF, 0xE0A1)
  | .ldVxDt _ => (0xF0FF, 0xF007)
  | .ldVxK _ => (0xF0FF, 0xF00A)
  | .ldDtVx _ => (0xF0FF, 0xF015)
  | .ldStVx _ => (0xF0FF, 0xF018)
  | .addI _ => (0xF0FF, 0xF01E)
  | .ldF _ => (0xF0FF, 0xF029)
  | .ldB _ => (0xF0FF, 0xF033)
  | .storeRegs _ => (0xF0FF, 0xF055)
  | .loadRegs _ => (0xF0FF, 0xF065)

/-- `op & mask = match` for the word the encoder writes. -/
def RowMatch.Statement (i : Instr) : Prop := encodeWord i &&& (RowMatch.row i).1 = (RowMatch.row i).2

theorem RowMatch.addr (f : Nibble) (nnn : Addr12) : wordAddr f nnn &&& 0xF000 = f ++ 0#12 := by
  have h : (0xF000 : Word) = (0xF : BitVec 4) ++ 0#12 := by decide
  have h1 : ∀ a : BitVec 4, a &&& 0xF = a := by decide
  rw [h, wordAddr]
  refine BitVec.and_append.trans ?_
  rw [h1, BitVec.and_zero]

theorem RowMatch.regByte (f : Nibble) (x : Reg) (nn : Byte) :
    wordRegByte f x nn &&& 0xF0FF = f ++ 0#4 ++ nn := by
  have h : (0xF0FF : Word) = (0xF : BitVec 4) ++ 0#4 ++ (0xFF : BitVec 8) := by decide
  have h1 : ∀ a : BitVec 4, a &&& 0xF = a := by decide
  have h2 : ∀ a : BitVec 8, a &&& 0xFF = a := fun a => BitVec.and_allOnes
  rw [h, wordRegByte]
  refine BitVec.and_append.trans ?_
  rw [BitVec.and_append, h1, h2, BitVec.and_zero]

theorem RowMatch.regImm (f : Nibble) (x : Reg) (nn : Byte) : wordRegByte f x nn &&& 0xF000 = f ++ 0#12 := by
  have h : (0xF000 : Word) = (0xF : BitVec 4) ++ 0#4 ++ 0#8 := by decide
  have h1 : ∀ a : BitVec 4, a &&& 0xF = a := by decide
  have h3 : ∀ a : BitVec 4, a ++ 0#4 ++ 0#8 = (a ++ 0#12 : Word) := by decide
  rw [h, wordRegByte]
  refine BitVec.and_append.trans ?_
  rw [BitVec.and_append, h1, BitVec.and_zero, BitVec.and_zero]
  exact h3 f

theorem RowMatch.regReg (f : Nibble) (x y : Reg) (n : Nibble) :
    wordRegReg f x y n &&& 0xF00F = f ++ 0#4 ++ 0#4 ++ n := by
  have h : (0xF00F : Word) = (0xF : BitVec 4) ++ 0#4 ++ 0#4 ++ (0xF : BitVec 4) := by decide
  have h1 : ∀ a : BitVec 4, a &&& 0xF = a := by decide
  rw [h, wordRegReg]
  refine BitVec.and_append.trans ?_
  rw [BitVec.and_append, BitVec.and_append, h1, h1, BitVec.and_zero, BitVec.and_zero]

theorem RowMatch.draw (f : Nibble) (x y : Reg) (n : Nibble) : wordRegReg f x y n &&& 0xF000 = f ++ 0#12 := by
  have h : (0xF000 : Word) = (0xF : BitVec 4) ++ 0#4 ++ 0#4 ++ 0#4 := by decide
  have h1 : ∀ a : BitVec 4, a &&& 0xF = a := by decide
  have h3 : ∀ a : BitVec 4, a ++ 0#4 ++ 0#4 ++ 0#4 = (a ++ 0#12 : Word) := by
    decide
  rw [h, wordRegReg]
  refine BitVec.and_append.trans ?_
  rw [BitVec.and_append, BitVec.and_append, h1, BitVec.and_zero, BitVec.and_zero, BitVec.and_zero]
  exact h3 f

theorem RowMatch.cls : RowMatch.Statement .cls := by unfold RowMatch.Statement; decide
theorem RowMatch.ret : RowMatch.Statement .ret := by unfold RowMatch.Statement; decide
theorem RowMatch.jp (nnn : Addr12) : RowMatch.Statement (.jp nnn) := RowMatch.addr _ _
theorem RowMatch.call (nnn : Addr12) : RowMatch.Statement (.call nnn) := RowMatch.addr _ _
theorem RowMatch.seImm (x : Reg) (nn : Byte) : RowMatch.Statement (.seImm x nn) := RowMatch.regImm _ _ _
theorem RowMatch.sneImm (x : Reg) (nn : Byte) : RowMatch.Statement (.sneImm x nn) := RowMatch.regImm _ _ _
theorem RowMatch.seReg (x y : Reg) : RowMatch.Statement (.seReg x y) := RowMatch.regReg _ _ _ _
theorem RowMatch.ldImm (x : Reg) (nn : Byte) : RowMatch.Statement (.ldImm x nn) := RowMatch.regImm _ _ _
theorem RowMatch.addImm (x : Reg) (nn : Byte) : RowMatch.Statement (.addImm x nn) := RowMatch.regImm _ _ _
theorem RowMatch.ldReg (x y : Reg) : RowMatch.Statement (.ldReg x y) := RowMatch.regReg _ _ _ _
theorem RowMatch.orReg (x y : Reg) : RowMatch.Statement (.orReg x y) := RowMatch.regReg _ _ _ _
theorem RowMatch.andReg (x y : Reg) : RowMatch.Statement (.andReg x y) := RowMatch.regReg _ _ _ _
theorem RowMatch.xorReg (x y : Reg) : RowMatch.Statement (.xorReg x y) := RowMatch.regReg _ _ _ _
theorem RowMatch.addReg (x y : Reg) : RowMatch.Statement (.addReg x y) := RowMatch.regReg _ _ _ _
theorem RowMatch.subReg (x y : Reg) : RowMatch.Statement (.subReg x y) := RowMatch.regReg _ _ _ _
theorem RowMatch.shr (x y : Reg) : RowMatch.Statement (.shr x y) := RowMatch.regReg _ _ _ _
theorem RowMatch.subnReg (x y : Reg) : RowMatch.Statement (.subnReg x y) := RowMatch.regReg _ _ _ _
theorem RowMatch.shl (x y : Reg) : RowMatch.Statement (.shl x y) := RowMatch.regReg _ _ _ _
theorem RowMatch.sneReg (x y : Reg) : RowMatch.Statement (.sneReg x y) := RowMatch.regReg _ _ _ _
theorem RowMatch.ldI (nnn : Addr12) : RowMatch.Statement (.ldI nnn) := RowMatch.addr _ _
theorem RowMatch.jpV0 (nnn : Addr12) : RowMatch.Statement (.jpV0 nnn) := RowMatch.addr _ _
theorem RowMatch.rnd (x : Reg) (nn : Byte) : RowMatch.Statement (.rnd x nn) := RowMatch.regImm _ _ _
theorem RowMatch.drw (x y : Reg) (n : Nat) : RowMatch.Statement (.drw x y n) := RowMatch.draw _ _ _ _
theorem RowMatch.skp (x : Reg) : RowMatch.Statement (.skp x) := RowMatch.regByte _ _ _
theorem RowMatch.sknp (x : Reg) : RowMatch.Statement (.sknp x) := RowMatch.regByte _ _ _
theorem RowMatch.ldVxDt (x : Reg) : RowMatch.Statement (.ldVxDt x) := RowMatch.regByte _ _ _
theorem RowMatch.ldVxK (x : Reg) : RowMatch.Statement (.ldVxK x) := RowMatch.regByte _ _ _
theorem RowMatch.ldDtVx (x : Reg) : RowMatch.Statement (.ldDtVx x) := RowMatch.regByte _ _ _
theorem RowMatch.ldStVx (x : Reg) : RowMatch.Statement (.ldStVx x) := RowMatch.regByte _ _ _
theorem RowMatch.addI (x : Reg) : RowMatch.Statement (.addI x) := RowMatch.regByte _ _ _
theorem RowMatch.ldF (x : Reg) : RowMatch.Statement (.ldF x) := RowMatch.regByte _ _ _
theorem RowMatch.ldB (x : Reg) : RowMatch.Statement (.ldB x) := RowMatch.regByte _ _ _
theorem RowMatch.storeRegs (x : Reg) : RowMatch.Statement (.storeRegs x) := RowMatch.regByte _ _ _
theorem RowMatch.loadRegs (x : Reg) : RowMatch.Statement (.loadRegs x) := RowMatch.regByte _ _ _

end Sys2Proof.Laws
end

