-- ==== Sys2Proof/Tests/Slice0.lean ====
section
/-! SUPPORT. Small checks of the model against spec/95_test_vectors.md (S<n> and T<n> are its entries) and against words written
out from the encodings of 30_encoding R61 and R64; and, for every statement with hypotheses, a witness that meets them. -/

namespace Sys2Proof.Tests

open Machine

/-- One Step with the word `w` placed at `pc`; after a fault, the state it started in. -/
def stepOn (s : State) (w : Nat) : State := stateAfter s (step (s.withFetchWord 16 w))

/-- The status of that Step. -/
def statusOn (s : State) (w : Nat) : Option Status := statusOf .step (s.withFetchWord 16 w)

/-- Reset with `I = 0x300`. -/
def atI300 : State := State.reset.setIndex 0x300

/-- Reset with one stored byte and `I` at it. -/
def withByte (i : Word) (b : Byte) : State :=
  (State.reset.setIndex i).storeBytes i.toNat [b]

/-! ### Well-formedness and decoding -/

/-- R62: a row count of 16 has no encoding. -/
theorem test_wellFormed_refuses_sixteen_rows : (Instr.drw 0 1 16).wellFormed = false := by decide

theorem test_wellFormed_accepts_fifteen_rows : (Instr.drw 0 1 15).wellFormed = true := by decide

/-- R64: no two rows of the opcode map can be selected by one word. -/
theorem test_opcodeMap_rows_disjoint :
    opcodeMap.Pairwise (fun a b => a.pattern &&& (a.mask &&& b.mask) ≠ b.pattern &&& (a.mask &&& b.mask)) := by decide

/-- Every row's own pattern decodes to the row's instruction (R64). -/
theorem test_opcodeMap_patterns_decode : ∀ r ∈ opcodeMap, decodeWord r.pattern = .ok (r.instr r.pattern) := by decide

theorem test_decode_cls : decode [0b00000000, 0b11100000] = .ok (.cls, []) := by decide
theorem test_decode_ret : decode [0b00000000, 0b11101110] = .ok (.ret, []) := by decide
theorem test_decode_jp : decode [0b00011010, 0b10111100] = .ok (.jp 0xABC, []) := by decide
theorem test_decode_call : decode [0b00100011, 0b00000001] = .ok (.call 0x301, []) := by decide
theorem test_decode_seImm : decode [0b00110011, 0b01000010] = .ok (.seImm 3 0x42, []) := by decide
theorem test_decode_sneImm : decode [0b01000011, 0b01000011] = .ok (.sneImm 3 0x43, []) := by decide
theorem test_decode_seReg : decode [0b01010001, 0b00100000] = .ok (.seReg 1 2, []) := by decide
theorem test_decode_ldImm : decode [0b01101010, 0b01111111] = .ok (.ldImm 10 0x7F, []) := by decide
theorem test_decode_addImm : decode [0b01110011, 0b00100000] = .ok (.addImm 3 0x20, []) := by decide
theorem test_decode_ldReg : decode [0b10000001, 0b00100000] = .ok (.ldReg 1 2, []) := by decide
theorem test_decode_orReg : decode [0b10000001, 0b00100001] = .ok (.orReg 1 2, []) := by decide
theorem test_decode_andReg : decode [0b10000001, 0b00100010] = .ok (.andReg 1 2, []) := by decide
theorem test_decode_xorReg : decode [0b10000001, 0b00100011] = .ok (.xorReg 1 2, []) := by decide
theorem test_decode_addReg : decode [0b10000001, 0b00100100] = .ok (.addReg 1 2, []) := by decide
theorem test_decode_subReg : decode [0b10000001, 0b00100101] = .ok (.subReg 1 2, []) := by decide
theorem test_decode_shr : decode [0b10000001, 0b00100110] = .ok (.shr 1 2, []) := by decide
theorem test_decode_subnReg : decode [0b10000001, 0b00100111] = .ok (.subnReg 1 2, []) := by decide
theorem test_decode_shl : decode [0b10000001, 0b00101110] = .ok (.shl 1 2, []) := by decide
theorem test_decode_sneReg : decode [0b10010001, 0b00100000] = .ok (.sneReg 1 2, []) := by decide
theorem test_decode_ldI : decode [0b10101111, 0b11111110] = .ok (.ldI 0xFFE, []) := by decide
theorem test_decode_jpV0 : decode [0b10110011, 0b00000001] = .ok (.jpV0 0x301, []) := by decide
theorem test_decode_rnd : decode [0b11000011, 0b00001111] = .ok (.rnd 3 0x0F, []) := by decide
theorem test_decode_drw : decode [0b11010001, 0b00101101] = .ok (.drw 1 2 13, []) := by decide
theorem test_decode_skp : decode [0b11100001, 0b10011110] = .ok (.skp 1, []) := by decide
theorem test_decode_sknp : decode [0b11100001, 0b10100001] = .ok (.sknp 1, []) := by decide
theorem test_decode_ldVxDt : decode [0b11110101, 0b00000111] = .ok (.ldVxDt 5, []) := by decide
theorem test_decode_ldVxK : decode [0b11110011, 0b00001010] = .ok (.ldVxK 3, []) := by decide
theorem test_decode_ldDtVx : decode [0b11110101, 0b00010101] = .ok (.ldDtVx 5, []) := by decide
theorem test_decode_ldStVx : decode [0b11110101, 0b00011000] = .ok (.ldStVx 5, []) := by decide
theorem test_decode_addI : decode [0b11110010, 0b00011110] = .ok (.addI 2, []) := by decide
theorem test_decode_ldF : decode [0b11110100, 0b00101001] = .ok (.ldF 4, []) := by decide
theorem test_decode_ldB : decode [0b11110100, 0b00110011] = .ok (.ldB 4, []) := by decide
theorem test_decode_storeRegs : decode [0b11110010, 0b01010101] = .ok (.storeRegs 2, []) := by decide
theorem test_decode_loadRegs : decode [0b11110010, 0b01100101] = .ok (.loadRegs 2, []) := by decide

/-- T1 to T6: words that select no instruction. -/
theorem test_unknown_words :
    ([0x0000, 0x00E1, 0x00EF, 0x01E0, 0x0AEE, 0x5121, 0x512F, 0x9AB1, 0x8128, 0x812F, 0xE09F, 0xE0A0, 0xF000, 0xF108,
      0xF075] : List Word).filter (fun w => (dispatchWord w).isSome) = [] := by decide

theorem test_unknown_by_name : decodeWord 0x8128 = .error (.unknownOpcode 0x8128) := by decide

theorem test_decode_short : decode [0x60] = .error .truncated := by decide

/-- The host's numbering: bit 0 is the least significant bit of the 16-bit opcode. -/
theorem test_decodeTableWord : decodeTableWord 16 0x8127 = some (.subnReg 1 2) := by decide

/-! ### Fetch, Advance, unknown words -/

/-- R46: the ROM bytes 60 05 form 0x6005. -/
theorem test_fetch_big_endian :
    fetch (stateAfter State.reset (perform (.load [0x60, 0x05]) State.reset)) = .ok 0x6005 := by decide

/-- T1: status, and `pc` alone moves. -/
theorem test_unknown_status : statusOf .step State.reset = some (.unknownOpcode 0x0000 0x0200) := by decide

theorem test_unknown_advances : after .step State.reset = State.reset.setPc 0x0202 := by decide

/-- T12. -/
theorem test_fetch_past_memory :
    statusOf .step (State.reset.setPc 0x0FFF) = some (.fetchOutOfRange 0x0FFF) := by decide

/-- T10: the last address a Fetch can read. -/
theorem test_fetch_last : (stepOn (State.reset.setPc 0x0FFE) 0x6007).pc = 0x1000 := by decide

/-- T13: an odd `pc` (D8). -/
theorem test_fetch_odd : (stepOn (State.reset.setPc 0x0201) 0x612A).getV 1 = 0x2A := by decide

/-- Log entry 4: past the last fetchable address the entry point is used. -/
theorem test_withFetchWord_past_memory :
    fetch ((State.reset.setPc 0x1002).withFetchWord 16 0x6A7F) = .ok 0x6A7F := by decide

/-! ### Control transfer (T20 to T39) -/

theorem test_jp : (stepOn State.reset 0x1ABC).pc = 0x0ABC := by decide
theorem test_jp_self_rests : atRest (State.reset.withFetchWord 16 0x1200) = true := by decide
theorem test_call : (stepOn State.reset 0x2300).stack = [0x0200] ∧ (stepOn State.reset 0x2300).pc = 0x0300 := by decide
theorem test_call_full :
    statusOn { State.reset with stack := [0x200, 0x200], stackDepth := some 2 } 0x2200 = some (.stackOverflow 0x200) := by
  decide
theorem test_ret_newest :
    (stepOn ((State.reset.setStack [0x0200, 0x0310]).setPc 0x0400) 0x00EE).pc = 0x0312 ∧
    (stepOn ((State.reset.setStack [0x0200, 0x0310]).setPc 0x0400) 0x00EE).stack = [0x0200] := by decide
/-- S7. -/
theorem test_ret_empty : statusOn State.reset 0x00EE = some (.stackUnderflow 0x200) := by decide
theorem test_seImm : (stepOn (State.reset.setV 3 0x42) 0x3342).pc = 0x204 := by decide
theorem test_sneImm : (stepOn (State.reset.setV 3 0x42) 0x4342).pc = 0x202 := by decide
theorem test_seReg : (stepOn ((State.reset.setV 1 9).setV 2 8) 0x5120).pc = 0x202 := by decide
theorem test_sneReg : (stepOn ((State.reset.setV 1 9).setV 2 8) 0x9120).pc = 0x204 := by decide
theorem test_jpV0 : (stepOn (State.reset.setV 0 0xFF) 0xBFFF).pc = 0x10FE := by decide
/-- T39. -/
theorem test_skip_at_end : (stepOn (State.reset.setPc 0x0FFE) 0x3000).pc = 0x1002 := by decide

/-! ### Arithmetic (S1 to S4, T40 to T72) -/

theorem test_ldImm : (stepOn State.reset 0x6F03).getV 15 = 0x03 := by decide
theorem test_addImm_wraps : (stepOn ((State.reset.setV 3 0xF0).setV 15 1) 0x7320).getV 3 = 0x10 ∧
    (stepOn ((State.reset.setV 3 0xF0).setV 15 1) 0x7320).getV 15 = 1 := by decide
theorem test_ldReg : (stepOn (State.reset.setV 1 0x2A) 0x8010).getV 0 = 0x2A := by decide
theorem test_orReg_keeps_vf : (stepOn (((State.reset.setV 0 0xF0).setV 1 0x0F).setV 15 1) 0x8011).getV 0 = 0xFF ∧
    (stepOn (((State.reset.setV 0 0xF0).setV 1 0x0F).setV 15 1) 0x8011).getV 15 = 1 := by decide
theorem test_andReg : (stepOn ((State.reset.setV 0 0xF0).setV 1 0x3C) 0x8012).getV 0 = 0x30 := by decide
theorem test_xorReg : (stepOn ((State.reset.setV 0 0xFF).setV 1 0x0F) 0x8013).getV 0 = 0xF0 := by decide
theorem test_addReg_carry : (stepOn ((State.reset.setV 0 0x80).setV 1 0x80) 0x8014).getV 0 = 0x00 ∧
    (stepOn ((State.reset.setV 0 0x80).setV 1 0x80) 0x8014).getV 15 = 1 := by decide
/-- T51: x = F, the sum is lost. -/
theorem test_addReg_into_vf : (stepOn ((State.reset.setV 15 0x02).setV 1 0x03) 0x8F14).getV 15 = 0 := by decide
/-- T52: y = F, the old VF is the operand. -/
theorem test_addReg_from_vf : (stepOn ((State.reset.setV 0 0x10).setV 15 0x05) 0x80F4).getV 0 = 0x15 := by decide
theorem test_subReg_borrow : (stepOn (State.reset.setV 1 0x01) 0x8015).getV 0 = 0xFF ∧
    (stepOn (State.reset.setV 1 0x01) 0x8015).getV 15 = 0 := by decide
theorem test_subReg_equal : (stepOn ((State.reset.setV 0 5).setV 1 5) 0x8015).getV 15 = 1 := by decide
theorem test_shr : (stepOn ((State.reset.setV 2 0x05).setV 3 0xFF) 0x8236).getV 2 = 0x02 ∧
    (stepOn ((State.reset.setV 2 0x05).setV 3 0xFF) 0x8236).getV 15 = 1 := by decide
theorem test_subnReg : (stepOn ((State.reset.setV 0 0x05).setV 1 0x03) 0x8017).getV 0 = 0xFE ∧
    (stepOn ((State.reset.setV 0 0x05).setV 1 0x03) 0x8017).getV 15 = 0 := by decide
theorem test_shl : (stepOn (State.reset.setV 2 0x81) 0x822E).getV 2 = 0x02 ∧
    (stepOn (State.reset.setV 2 0x81) 0x822E).getV 15 = 1 := by decide
/-- T71: any draw masked by 0 is 0. -/
theorem test_rnd_masked (s : State) : ∃ t, exec (.rnd 3 0x00) s = .next t ∧ t.getV 3 = 0 ∧ t.draws = s.draws + 1 :=
  ⟨_, rfl, by simp, rfl⟩

/-! ### Index register and memory (S8, S9, T80 to T101) -/

theorem test_ldI : (stepOn State.reset 0xAFFF).index = 0x0FFF := by decide
/-- T81: exactly 0x1000 is kept, VF left alone. -/
theorem test_addI_sentinel : (stepOn (((State.reset.setIndex 0x0FFF).setV 0 1).setV 15 0x55) 0xF01E).index = 0x1000 ∧
    (stepOn (((State.reset.setIndex 0x0FFF).setV 0 1).setV 15 0x55) 0xF01E).getV 15 = 0x55 := by decide
/-- T84: x = F, the old VF is the addend. -/
theorem test_addI_overflow : (stepOn ((State.reset.setIndex 0x0FF0).setV 15 0x20) 0xFF1E).index = 0 ∧
    (stepOn ((State.reset.setIndex 0x0FF0).setV 15 0x20) 0xFF1E).getV 15 = 1 := by decide
theorem test_ldF : (stepOn (State.reset.setV 0 0xFF) 0xF029).index = 0x04FB := by decide
/-- T89. -/
theorem test_ldB : (stepOn (atI300.setV 0 0xEA) 0xF033).byteAt 0x300 = 2 ∧
    (stepOn (atI300.setV 0 0xEA) 0xF033).byteAt 0x301 = 3 ∧
    (stepOn (atI300.setV 0 0xEA) 0xF033).byteAt 0x302 = 4 := by decide
/-- T92. -/
theorem test_ldB_out_of_range :
    statusOn (State.reset.setIndex 0x0FFE) 0xF033 = some (.memOutOfRange 0x0FFE 0x0200) := by decide
/-- T93. -/
theorem test_storeRegs : (stepOn ((atI300.setV 2 0x33).setV 3 0x44) 0xF255).byteAt 0x302 = 0x33 ∧
    (stepOn ((atI300.setV 2 0x33).setV 3 0x44) 0xF255).byteAt 0x303 = 0 := by decide
/-- T97. -/
theorem test_storeRegs_out_of_range :
    statusOn (State.reset.setIndex 0x0FF1) 0xFF55 = some (.memOutOfRange 0x0FF1 0x0200) := by decide
/-- T94, one byte: V0 loaded, V1 left alone. -/
theorem test_loadRegs : (stepOn ((withByte 0x300 0xAA).setV 1 7) 0xF065).getV 0 = 0xAA ∧
    (stepOn ((withByte 0x300 0xAA).setV 1 7) 0xF065).getV 1 = 7 := by decide
/-- T98. -/
theorem test_loadRegs_out_of_range :
    statusOn (State.reset.setIndex 0x0FF1) 0xFF65 = some (.memOutOfRange 0x0FF1 0x0200) := by decide

/-! ### Display (T110 to T122) -/

theorem test_cls : (stepOn (State.reset.setDisp (Display.setPixel Display.clear 3 4 true)) 0x00E0).disp = Display.clear := by
  decide
/-- T114: wraps, is not clipped. -/
theorem test_drw_wraps : Display.pixel (stepOn ((withByte 0x300 0x01).setV 0 60) 0xD011).disp 0 3 = true := by decide
/-- T116: a partial overlap. -/
theorem test_drw_collision :
    (stepOn ((withByte 0x300 0xC0).setDisp (Display.setPixel Display.clear 0 1 true)) 0xD011).getV 15 = 1 ∧
    Display.pixel (stepOn ((withByte 0x300 0xC0).setDisp (Display.setPixel Display.clear 0 1 true)) 0xD011).disp 0 0 = true ∧
    Display.pixel (stepOn ((withByte 0x300 0xC0).setDisp (Display.setPixel Display.clear 0 1 true)) 0xD011).disp 0 1 = false := by
  decide
/-- T118: x = F reads the old VF. -/
theorem test_drw_reads_old_vf : Display.pixel (stepOn ((withByte 0x300 0x80).setV 15 5) 0xDF11).disp 0 5 = true ∧
    (stepOn ((withByte 0x300 0x80).setV 15 5) 0xDF11).getV 15 = 0 := by decide
/-- T117: no row, no range check, VF reset. -/
theorem test_drw_no_rows : (stepOn ((State.reset.setIndex 0x1000).setV 15 1) 0xD010).getV 15 = 0 := by decide
/-- T120. -/
theorem test_drw_out_of_range :
    statusOn (State.reset.setIndex 0x0FFF) 0xD012 = some (.memOutOfRange 0x0FFF 0x0200) := by decide

/-! ### Keypad and timers (S11, T130 to T149) -/

theorem test_skp : (stepOn ((State.reset.setKey (some 5)).setV 0 5) 0xE09E).pc = 0x204 := by decide
/-- T136: the whole byte is compared. -/
theorem test_skp_whole_byte : (stepOn ((State.reset.setKey (some 5)).setV 0 0x15) 0xE09E).pc = 0x202 := by decide
theorem test_sknp_no_key : (stepOn (State.reset.setV 0 5) 0xE0A1).pc = 0x204 := by decide
theorem test_ldVxK_waits : statusOn State.reset 0xF30A = some .keyWait ∧
    (stepOn State.reset 0xF30A).pc = 0x200 ∧ (stepOn State.reset 0xF30A).incPc = true := by decide
theorem test_ldVxK_stores : (stepOn (State.reset.setKey (some 0xF)) 0xFF0A).getV 15 = 0x0F ∧
    (stepOn (State.reset.setKey (some 0xF)) 0xFF0A).pc = 0x202 := by decide
theorem test_ldVxDt : (stepOn (State.reset.setDt 0x3C) 0xF207).getV 2 = 0x3C := by decide
theorem test_ldDtVx : (stepOn (State.reset.setV 2 0x3C) 0xF215).dt = 0x3C := by decide
theorem test_ldStVx : (stepOn (State.reset.setV 2 0x3C) 0xF218).st = 0x3C ∧
    (stepOn (State.reset.setV 2 0x3C) 0xF218).dt = 0 := by decide

/-! ### The host's operations (T144 to T166) -/

theorem test_tick_floor : (after .tick (State.reset.setDt 2)).dt = 1 ∧ (after .tick (State.reset.setDt 2)).st = 0 := by decide
/-- T162. -/
theorem test_load_overflow (bytes : List Byte) (h : bytes.length = 3585) (s : State) :
    statusOf (.load bytes) s = some (.loadOverflow 3585) := by
  simp [statusOf, perform, doLoad, raise, Config.loadMax, Fault.status, h]

/-- T165: nothing is cleared beyond the image. -/
theorem test_load_keeps_beyond :
    (runAll [.load [1, 2, 3, 4], .load [5, 6]] State.reset).byteAt 0x202 = 3 ∧
    (runAll [.load [1, 2, 3, 4], .load [5, 6]] State.reset).byteAt 0x201 = 6 := by decide
/-- R232: glyph 1 is at 0x055. -/
theorem test_font_at_reset : State.reset.byteAt 0x055 = 0x20 ∧ State.reset.byteAt 0x0A0 = 0 := by decide
/-- T160: a loaded ROM is erased. -/
theorem test_reinit_erases : after .reinit (after (.load [0x60]) State.reset) = State.reset := by decide
/-- R200: the codes. -/
theorem test_status_codes : (Status.unknownOpcode 0 0).code = 0x02 ∧ (Status.loadOverflow 0).code = 0x20 := by decide
/-- A font other than the default (R7, R25). -/
def otherFont : Font := Vector.replicate 80 0xAA

/-- T122 with another font: the glyph at 0x050 is what the parameter says, and survives a further Initialize. -/
theorem test_font_is_a_parameter : (State.resetWith otherFont none).byteAt 0x050 = 0xAA ∧
    (after .reinit (after (.load [0x60]) (State.resetWith otherFont none))).byteAt 0x09F = 0xAA ∧
    (State.resetWith otherFont none).byteAt 0x0A0 = 0 := by decide

/-- A byte written at its reset value is not listed. -/
theorem test_memory_canonical : ((State.reset.storeBytes 0x055 [0x21]).storeBytes 0x055 [0x20]).mem = [] := by decide

/-! ### Witnesses: for every statement with hypotheses, states and operands that meet them, clause by clause -/

/-- `s` with the word `w` where the next Step fetches it. -/
def placed (w : Nat) : State := State.reset.withFetchWord 16 w

theorem test_witness_DecodeOfEncodeIsTheInstruction : (Instr.drw 15 15 15).wellFormed = true ∧ Instr.ret.wellFormed = true := by
  decide
theorem test_witness_EncodeOfDecodeIsTheWord : decodeWord 0xDFFF = .ok (.drw 15 15 15) := by decide
theorem test_witness_StepRunsTheDecodedInstruction : (placed 0x6A7F).pc.toNat ≤ 0x0FFE ∧ (Instr.ldImm 10 0x7F).wellFormed = true ∧
    decode [(placed 0x6A7F).byteAt (placed 0x6A7F).pc.toNat, (placed 0x6A7F).byteAt ((placed 0x6A7F).pc.toNat + 1)]
      = .ok (.ldImm 10 0x7F, []) := by decide
theorem test_witness_AdvanceAddsTwoUnlessSuppressed :
    fetch State.reset = .ok 0x0000 ∧ execute 0x0000 State.reset = .next State.reset := ⟨rfl, rfl⟩
theorem test_witness_FetchReadsBigEndianOrFaults :
    (State.reset.setPc 0x0FFE).pc.toNat ≤ 0x0FFE ∧ 0x0FFE < (State.reset.setPc 0x0FFF).pc.toNat := by decide
theorem test_witness_StepPastMemoryFaults : 0x0FFE < (State.reset.setPc 0x0FFF).pc.toNat := by decide
theorem test_witness_UnknownWordIsAReportedNoOp : fetch (placed 0x8128) = .ok 0x8128 ∧
    decodeWord 0x8128 = .error (.unknownOpcode 0x8128) ∧ (placed 0x8128).incPc = true := by decide
theorem test_witness_PlacedWordIsFetched : State.reset.memWf = true := by decide

/-- A stack of two entries under STACK_DEPTH = 2: full. -/
def fullStack : State := { State.reset with stack := [0x200, 0x204], stackDepth := some 2 }

/-- The same stack under STACK_DEPTH = 3: one more entry fits. -/
def roomyStack : State := { State.reset with stack := [0x200, 0x204], stackDepth := some 3 }

theorem test_witness_CallPushesItsOwnAddress_room : roomyStack.stackDepth ≠ some roomyStack.stack.length := by decide
theorem test_witness_CallPushesItsOwnAddress_full : fullStack.stackDepth = some fullStack.stack.length := by decide
theorem test_witness_StackOverflowExactlyWhenFull : State.reset.stackDepth = none := by decide
theorem test_witness_ReturnPopsTheNewestEntry_newest : fullStack.stack = [0x200] ++ [0x204] ∧ fullStack.incPc = true := by decide
theorem test_witness_ReturnPopsTheNewestEntry_empty : State.reset.stack = [] := by decide
theorem test_witness_EmptyReturnStepFaultsForEver : fetch (placed 0x00EE) = .ok 0x00EE ∧ (placed 0x00EE).stack = [] := by decide
theorem test_witness_ReturnComesBackAfterTheCall : roomyStack.stackDepth ≠ some roomyStack.stack.length ∧
    (stateAfter roomyStack (exec (.call 0x300) roomyStack)).stack = [0x200, 0x204, 0x200] ∧
    (advance (stateAfter roomyStack (exec (.call 0x300) roomyStack))).incPc = true := by decide
theorem test_witness_ImmediateSkips : State.reset.incPc = true := by decide
theorem test_witness_RegisterSkips : State.reset.incPc = true ∧ (0xF : Nibble) ≠ 0x0 := by decide
theorem test_witness_AddSetsCarryLast : (14 : Reg) ≠ vf := by decide
theorem test_witness_SubtractSetsNotBorrowLast : (0 : Reg) ≠ vf := by decide
theorem test_witness_ShiftsMoveTheLostBitToVf : (14 : Reg) ≠ vf := by decide
theorem test_witness_RandomIsAMaskedFreshDraw : (0x7F : Byte).getLsbD 7 = false := by decide
theorem test_witness_IndexAddOverflowsAbove0x1000 :
    (State.reset.setIndex 0x1000).index.toNat + ((State.reset.setIndex 0x1000).getV 0).toNat ≤ 0x1000 ∧
    0x1000 < ((State.reset.setIndex 0x1000).setV 0 1).index.toNat + (((State.reset.setIndex 0x1000).setV 0 1).getV 0).toNat := by
  decide
theorem test_witness_BcdStoresThreeDigits : (State.reset.setIndex 0x0FFD).index.toNat + 2 ≤ 0x0FFF ∧
    (State.reset.setIndex 0x0FFD).memWf = true ∧ 0x0FFF < (State.reset.setIndex 0x0FFE).index.toNat + 2 := by decide
theorem test_witness_StoreRegistersWritesTheBlock : (State.reset.setIndex 0x0FF0).index.toNat + (15 : Reg).val ≤ 0x0FFF ∧
    (State.reset.setIndex 0x0FF0).memWf = true ∧ 0x0FFF < (State.reset.setIndex 0x0FF1).index.toNat + (15 : Reg).val := by
  decide
theorem test_witness_LoadRegistersReadsTheBlock : (State.reset.setIndex 0x0FFF).index.toNat + (0 : Reg).val ≤ 0x0FFF ∧
    0x0FFF < (State.reset.setIndex 0x1000).index.toNat + (0 : Reg).val := by decide
theorem test_witness_StoredBytesAreFetchedNext : 0 + 1 ≤ (1 : Reg).val ∧ (State.reset.setIndex 0x0202).memWf = true ∧
    (State.reset.setIndex 0x0202).index.toNat + (1 : Reg).val ≤ 0x0FFF ∧
    (advance (State.reset.setIndex 0x0202)).pc.toNat = dataAddr (State.reset.setIndex 0x0202) 0 := by decide
/-- One row at the last cell, and no row past it: the two sides of the range condition. -/
theorem test_witness_DrawWritesPixelsAndVf : (1 = 0 ∨ (State.reset.setIndex 0x0FFF).index.toNat + 1 - 1 ≤ 0x0FFF) ∧
    (0 = 0 ∨ (State.reset.setIndex 0x1001).index.toNat + 0 - 1 ≤ 0x0FFF) := by decide

/-- A sprite row 0x80 at `I`. -/
def oneBit : State := withByte 0x300 0x80

/-- The same, with the pixel under it on. -/
def oneBitOn : State := oneBit.setDisp (Display.setPixel Display.clear 0 0 true)

theorem test_witness_DrawFlipsExactlyTheCoveredPixels_covered : spriteCovers oneBitOn 0 1 1 0 0 ∧
    Display.pixel oneBitOn.disp 0 0 = true := ⟨⟨0, 0, by decide⟩, by decide⟩
theorem test_witness_DrawFlipsExactlyTheCoveredPixels_not_covered : ¬ spriteCovers oneBitOn 0 1 1 1 0 := by
  rintro ⟨row, bit, hrow, -, h, -⟩
  obtain rfl : row = 0 := by omega
  exact absurd h (by decide)
theorem test_witness_DrawFlipsExactlyTheCoveredPixels_no_collision :
    ¬ ∃ r c, spriteCovers oneBit 0 1 1 r c ∧ Display.pixel oneBit.disp r c = true := by
  rintro ⟨r, c, -, h⟩
  exact Bool.false_ne_true ((Display.pixel_clear r c).symm.trans h)
theorem test_witness_DrawingTwiceRestoresTheDisplay :
    ∃ t u : State, exec (.drw 0 1 1) oneBit = .next t ∧ u.disp = t.disp ∧ (∀ a, u.byteAt a = oneBit.byteAt a) ∧ u.index = oneBit.index ∧
      u.getV 0 = oneBit.getV 0 ∧ u.getV 1 = oneBit.getV 1 :=
  ⟨_, oneBit.setDisp (stateAfter oneBit (exec (.drw 0 1 1) oneBit)).disp, rfl, rfl, fun _ => rfl, rfl, rfl, rfl⟩
theorem test_witness_KeySkips_pressed : ∃ k : Key, ((State.reset.setKey (some 5)).setV 0 5).key = some k ∧
    k.toNat = (((State.reset.setKey (some 5)).setV 0 5).getV 0).toNat := ⟨5, by decide⟩
theorem test_witness_KeySkips_not_pressed : State.reset.incPc = true ∧
    ¬ ∃ k : Key, State.reset.key = some k ∧ k.toNat = (State.reset.getV 0).toNat := by
  refine ⟨rfl, ?_⟩
  rintro ⟨k, h, -⟩
  cases h
theorem test_witness_KeyWaitOrStore : State.reset.key = none ∧ (State.reset.setKey (some 15)).key = some 15 := by decide
theorem test_witness_BlockedKeyWaitStepChangesNothing : fetch (placed 0xF30A) = .ok (wordRegByte 0xF 3 0x0A) ∧
    (placed 0xF30A).key = none ∧ (placed 0xF30A).incPc = true := by decide
theorem test_witness_LoadCopiesAllOrNothing : (List.replicate 3584 (0x60 : Byte)).length ≤ 3584 ∧
    State.reset.memWf = true ∧ 3584 < (List.replicate 3585 (0x60 : Byte)).length := by
  rw [List.length_replicate, List.length_replicate]; decide
theorem test_witness_EveryOperationReturnsOneStatus : ((statusOf .step State.reset).map Status.cls) = some .report ∧
    ((statusOf .step (placed 0x00EE)).map Status.cls) = some .fault := by decide
theorem test_witness_FaultChangesNothing_step :
    perform .step (State.reset.setPc 0x0FFF) = .fault (.fetchOutOfRange 0x0FFF) := rfl
theorem test_witness_FaultChangesNothing_load :
    perform (.load (List.replicate 3585 0)) State.reset = .fault (.loadOverflow 3585) := by
  have h : (List.replicate 3585 (0 : Byte)).length = 3585 := List.length_replicate
  simp only [perform, doLoad, h]
  rfl
theorem test_witness_ExecuteWritesOnlyWhatTheTableGives : exec (.ldI 0x300) State.reset = .next atI300 := rfl
theorem test_witness_ExecuteFaultsExactlyAsTabled : faultOf .ret fullStack = none ∧
    faultOf .ret State.reset = some (.stackUnderflow 0x200) ∧
    faultOf (.drw 0 0 1) (State.reset.setIndex 0x1000) = some (.memOutOfRange 0x1000 0x200) ∧
    faultOf (.drw 0 0 0) (State.reset.setIndex 0x1000) = none := by decide
theorem test_witness_AdvanceFlagClearedByExactly :
    exec (.jp 0x300) State.reset = .next ((State.reset.setPc 0x300).setIncPc false) := rfl
theorem test_witness_SoundTimerIsReadByNoInstruction : exec (.ldI 0x300) State.reset = .next atI300 ∧
    exec .ret State.reset = .fault (.stackUnderflow 0x200) := ⟨rfl, rfl⟩
theorem test_witness_SelfJumpIsAtRest : atRest (placed 0x1200) = true ∧ (placed 0x1200).incPc = true := by decide
theorem test_witness_StepKeepsTheInvariant :
    Inv atI300 ∧ step atI300 = .next (atI300.setPc 0x0202) := by
  refine ⟨⟨by decide, by decide, by decide, by simp [atI300, State.reset, State.resetWith], ?_, rfl⟩, rfl⟩
  intro N h
  cases h
theorem test_witness_EveryOperationKeepsTheInvariant : Inv { atI300 with stack := [0x0FFE], stackDepth := some 1 } := by
  refine ⟨by decide, by decide, by decide, by simp, ?_, rfl⟩
  intro N h
  cases h
  decide
theorem test_witness_ReachableStatesKeepTheirBounds :
    runAll [.pressKey (some 5), .step, .tick] (State.resetWith otherFont (some 16)) =
      { State.resetWith otherFont (some 16) with pc := 0x0202, key := some 5 } := by decide

end Sys2Proof.Tests
end

/-! # The state: what Execute and the host's operations keep (10_state, 40_step_cycle R84) -/

namespace Sys2Proof

open Machine

/-! ### What an operation that answers a next state went through -/

/-- `P` holds of the next state, if that is the answer; a fault or a refusal asks nothing. -/
def OnNext (P : State → Prop) (o : Result) : Prop := ∀ t, o = .next t → P t

@[simp] theorem onNext_next {P : State → Prop} {t : State} : OnNext P (.next t) ↔ P t :=
  ⟨fun h => h t rfl, fun h _ e => Host.Outcome.next.inj e ▸ h⟩

theorem OnNext.next {P : State → Prop} {t : State} (h : P t) : OnNext P (.next t) := onNext_next.mpr h

/-- Only a range check that passed answers a next state (R146). -/
theorem OnNext.checkRange {P : State → Prop} {first len : Nat} {f : Fault} {k : Result}
    (h : len = 0 ∨ first + len ≤ Config.memTop + 1 → OnNext P k) : OnNext P (checkRange first len f k) := fun t e =>
  have ⟨hr, hk⟩ := checkRange_eq_next e
  h hr t hk

/-- Only a stack with room is pushed on (R22). -/
theorem OnNext.push {P : State → Prop} {k : State → State} {w : Word} {s : State}
    (h : s.stackDepth ≠ some s.stack.length → P (k (s.setStack (s.stack ++ [w])))) :
    OnNext P (andThen (push w s) fun t => .next (k t)) := by
  intro t e
  obtain ⟨u, hu, hk⟩ := andThen_eq_next e
  obtain ⟨hroom, rfl⟩ := push_eq_next hu
  cases hk
  exact h hroom

/-- Only a stack with a newest entry is popped (R22, R100). -/
theorem OnNext.popPc {P : State → Prop} {s : State}
    (h : ∀ l e, s.stack = l ++ [e] → P ((s.setStack l).setPc e)) : OnNext P (popPc s) := by
  intro t e
  obtain ⟨l, w, hs, rfl⟩ := popPc_eq_next e
  exact h l w hs

theorem execAddI_of_gt {x : Reg} {s : State} (h : 0x1000 < s.index.toNat + (s.getV x).toNat) :
    execAddI x s = .next ((s.setIndex 0x0000).setV vf (flagByte true)) := if_pos (decide_eq_true h)

theorem execAddI_of_le {x : Reg} {s : State} (h : s.index.toNat + (s.getV x).toNat ≤ 0x1000) :
    execAddI x s = .next (s.setIndex (BitVec.ofNat 16 (s.index.toNat + (s.getV x).toNat))) :=
  if_neg (by simpa [indexOverflows] using h)

theorem execLdVxK_of_none {x : Reg} {s : State} (h : s.key = none) : execLdVxK x s = .next (s.setIncPc false) := by
  simp [execLdVxK, h]

theorem execLdVxK_of_some {x : Reg} {s : State} {k : Key} (h : s.key = some k) :
    execLdVxK x s = .next (s.setV x (k.setWidth 8)) := by
  simp [execLdVxK, h]

/-- What Execute of a word that answers a next state did (R82, R86). -/
theorem execute_eq_next {op : Word} {s t : State} (h : execute op s = .next t) :
    (∃ i, decodeWord op = .ok i ∧ exec i s = .next t) ∨ ((∃ e, decodeWord op = .error e) ∧ t = s) := by
  unfold execute at h
  split at h
  · next i hi => exact .inl ⟨i, hi, h⟩
  · next e he => exact .inr ⟨⟨e, he⟩, (Host.Outcome.next.inj h).symm⟩

/-- What a Step that answers a next state did: Fetch, Execute, Advance (R80). -/
theorem step_eq_next {s t : State} (h : step s = .next t) :
    ∃ op u, fetch s = .ok op ∧ execute op s = .next u ∧ t = advance u := by
  unfold step at h
  split at h
  · cases h
  · next op hop =>
    obtain ⟨u, hu, ht⟩ := andThen_eq_next h
    exact ⟨op, u, hop, hu, (Host.Outcome.next.inj ht).symm⟩

/-! ### R26: the frame of Execute -/

theorem execAddI_frame (x : Reg) (s : State) :
    OnNext (UnchangedBut (fun p => p = .index ∨ p = .reg vf) s) (execAddI x s) := by
  have hindex (w : Word) : UnchangedBut (fun p => p = .index ∨ p = .reg vf) s (s.setIndex w) :=
    (unchanged_setIndex s w).mono fun _ => .inl
  rcases Nat.lt_or_ge 0x1000 (s.index.toNat + (s.getV x).toNat) with h | h
  · rw [execAddI_of_gt h]
    exact .next ((hindex _).trans ((unchanged_setV _ vf _).mono fun _ => .inr))
  · rw [execAddI_of_le h]
    exact .next (hindex _)

theorem execLdVxK_frame (x : Reg) (s : State) : OnNext (UnchangedBut (writesOf (.ldVxK x) s) s) (execLdVxK x s) := by
  cases hk : s.key with
  | none =>
    rw [execLdVxK_of_none hk]
    exact .next ((unchanged_setIncPc s _).mono fun _ hp => .inl ⟨hk, hp⟩)
  | some k =>
    rw [execLdVxK_of_some hk]
    exact .next ((unchanged_setV s x _).mono fun _ hp => .inr ⟨by simp [hk], hp⟩)

theorem execRnd_frame (x : Reg) (nn : Byte) (s : State) :
    OnNext (UnchangedBut (writesOf (.rnd x nn) s) s) (execRnd x nn s) :=
  .next (((unchanged_setV s x _).mono fun _ => .inl).trans ((unchanged_setDraws _ _).mono fun _ => .inr))

theorem execRet_frame (s : State) : OnNext (UnchangedBut (writesOf .ret s) s) (execRet s) :=
  .popPc fun l e _ =>
    ((unchanged_setStack s l).mono fun _ => .inr).trans ((unchanged_setPc _ e).mono fun _ => .inl)

theorem execCall_frame (nnn : Addr12) (s : State) : OnNext (UnchangedBut (writesOf (.call nnn) s) s) (execCall nnn s) :=
  .push fun _ => ((unchanged_setStack s _).mono fun _ hp => .inr (.inr hp)).trans
    ((unchanged_jumpTo _ _).mono fun _ hp => hp.imp id .inl)

theorem execDrw_frame (x y : Reg) (n : Nat) (s : State) :
    OnNext (UnchangedBut (writesOf (.drw x y n) s) s) (execDrw x y n s) :=
  .checkRange fun _ => .next
    (((unchanged_setDisp s _).mono fun _ => .inr).trans ((unchanged_setV _ vf _).mono fun _ => .inl))

/-- A store from `I` on writes the cells `dataAddr` gives. -/
theorem storeBytes_frame (s : State) (bs : List Byte) :
    UnchangedBut (fun p => ∃ k, k < bs.length ∧ p = .cell (dataAddr s k)) s (s.storeBytes (dataAddr s 0) bs) :=
  unchanged_storeBytes s (dataAddr s 0) bs

theorem execStoreRegs_frame (x : Reg) (s : State) :
    OnNext (UnchangedBut (writesOf (.storeRegs x) s) s) (execStoreRegs x s) :=
  .checkRange fun _ => .next ((storeBytes_frame s (blockOf s x)).mono fun _ ⟨k, hk, hp⟩ =>
    ⟨k, Nat.le_of_lt_succ (hk.trans_eq (blockOf_length s x)), hp⟩)

/-- Execute writes only what the summary table gives the instruction (R26). -/
theorem exec_frame (s : State) : ∀ i, OnNext (UnchangedBut (writesOf i s) s) (exec i s)
  | .cls => .next (unchanged_setDisp s _)
  | .ret => execRet_frame s
  | .jp _ => .next (unchanged_jumpTo s _)
  | .call nnn => execCall_frame nnn s
  | .seImm _ _ => .next (unchanged_skipIf s _)
  | .sneImm _ _ => .next (unchanged_skipIf s _)
  | .seReg _ _ => .next (unchanged_skipIf s _)
  | .ldImm x _ => .next (unchanged_setV s x _)
  | .addImm x _ => .next (unchanged_setV s x _)
  | .ldReg x _ => .next (unchanged_setV s x _)
  | .orReg x _ => .next (unchanged_setV s x _)
  | .andReg x _ => .next (unchanged_setV s x _)
  | .xorReg x _ => .next (unchanged_setV s x _)
  | .addReg x _ => .next (unchanged_setResultFlag s x _ _)
  | .subReg x _ => .next (unchanged_setResultFlag s x _ _)
  | .shr x _ => .next (unchanged_setResultFlag s x _ _)
  | .subnReg x _ => .next (unchanged_setResultFlag s x _ _)
  | .shl x _ => .next (unchanged_setResultFlag s x _ _)
  | .sneReg _ _ => .next (unchanged_skipIf s _)
  | .ldI _ => .next (unchanged_setIndex s _)
  | .jpV0 _ => .next (unchanged_jumpTo s _)
  | .rnd x nn => execRnd_frame x nn s
  | .drw x y n => execDrw_frame x y n s
  | .skp _ => .next (unchanged_skipIf s _)
  | .sknp _ => .next (unchanged_skipIf s _)
  | .ldVxDt x => .next (unchanged_setV s x _)
  | .ldVxK x => execLdVxK_frame x s
  | .ldDtVx _ => .next (unchanged_setDt s _)
  | .ldStVx _ => .next (unchanged_setSt s _)
  | .addI x => execAddI_frame x s
  | .ldF _ => .next (unchanged_setIndex s _)
  | .ldB _ => .checkRange fun _ => .next (storeBytes_frame s [_, _, _])
  | .storeRegs x => execStoreRegs_frame x s
  | .loadRegs x => .checkRange fun _ => .next (unchanged_blockFrom s x)

/-- Settles O52: `exec_frame`, the frame of each instruction. -/
theorem executeWritesOnlyWhatTheTableGives : Obligations.ExecuteWritesOnlyWhatTheTableGives :=
  fun i s t h => exec_frame s i t h

/-! ### R21: who clears `inc_pc` -/

/-- The table gives `inc_pc` to the instructions that suppress the Advance, and to no other (R21, R26). -/
theorem writesOf_incPc_iff (i : Instr) (s : State) : writesOf i s .incPc ↔ suppresses i s = true := by
  cases i <;> simp [writesOf, suppresses]

/-- An instruction that suppresses the Advance leaves `inc_pc` cleared. -/
theorem exec_incPc_of_suppresses {i : Instr} {s : State} (hs : suppresses i s = true) :
    OnNext (fun t => t.incPc = false) (exec i s) := by
  cases i with
  | jp nnn => exact .next rfl
  | call nnn => exact .push fun _ => rfl
  | jpV0 nnn => exact .next rfl
  | ldVxK x =>
    have hk : s.key = none := Option.isNone_iff_eq_none.mp hs
    show OnNext _ (execLdVxK x s)
    rw [execLdVxK_of_none hk]
    exact .next rfl
  | _ => exact absurd hs Bool.false_ne_true

/-- Settles O54: the four that suppress clear the flag, and the frame of R26 keeps it for every other instruction. -/
theorem advanceFlagClearedByExactly : Obligations.AdvanceFlagClearedByExactly := by
  intro i s t h
  by_cases hs : suppresses i s = true
  · rw [if_pos hs]
    exact exec_incPc_of_suppresses hs t h
  · rw [if_neg hs]
    exact exec_frame s i t h .incPc (mt (writesOf_incPc_iff i s).mp hs)

/-! ### R19: the sound timer is read by no instruction -/

/-- The answer with ST set to `b` in its next state; a fault stays what it is. -/
def withSt (b : Byte) (o : Result) : Result := andThen o fun t => .next (t.setSt b)

/-- A range check that does not look at ST carries it through when what follows it does. -/
theorem checkRange_withSt {first len : Nat} {f : Fault} {k k' : Result} {b : Byte} (h : k' = withSt b k) :
    checkRange first len f k' = withSt b (checkRange first len f k) := by
  rw [h]; exact (apply_ite (withSt b) _ (raise f) k).symm

theorem skipIf_setSt (taken : Bool) (s : State) (b : Byte) : skipIf taken (s.setSt b) = (skipIf taken s).setSt b := by
  cases taken <;> rfl

theorem execRet_setSt (s : State) (b : Byte) : execRet (s.setSt b) = withSt b (execRet s) := by
  rcases List.eq_nil_or_concat' s.stack with hs | ⟨l, e, hs⟩
  · simp only [execRet, popPc_of_empty hs, popPc_of_empty (s := s.setSt b) hs]; rfl
  · simp only [execRet, popPc_of_newest hs, popPc_of_newest (s := s.setSt b) hs]; rfl

theorem execCall_setSt (nnn : Addr12) (s : State) (b : Byte) :
    execCall nnn (s.setSt b) = withSt b (execCall nnn s) := by
  by_cases h : s.stackDepth = some s.stack.length
  · simp only [execCall, push_of_full h, push_of_full (s := s.setSt b) h]; rfl
  · simp only [execCall, push_of_room h, push_of_room (s := s.setSt b) h]; rfl

theorem execAddI_setSt (x : Reg) (s : State) (b : Byte) : execAddI x (s.setSt b) = withSt b (execAddI x s) := by
  rcases Nat.lt_or_ge 0x1000 (s.index.toNat + (s.getV x).toNat) with h | h
  · rw [execAddI_of_gt h, execAddI_of_gt (s := s.setSt b) h]; rfl
  · rw [execAddI_of_le h, execAddI_of_le (s := s.setSt b) h]; rfl

theorem execLdVxK_setSt (x : Reg) (s : State) (b : Byte) : execLdVxK x (s.setSt b) = withSt b (execLdVxK x s) := by
  cases hk : s.key with
  | none => rw [execLdVxK_of_none hk, execLdVxK_of_none (s := s.setSt b) hk]; rfl
  | some k => rw [execLdVxK_of_some hk, execLdVxK_of_some (s := s.setSt b) hk]; rfl

/-- LD ST, Vx writes ST and does not read it: what ST held before leaves no trace (R175). -/
theorem execLdStVx_setSt (x : Reg) (s : State) (b : Byte) : execLdStVx x (s.setSt b) = execLdStVx x s := rfl

/-- Execute of any other instruction carries ST through. -/
theorem exec_setSt (s : State) (b : Byte) :
    ∀ i, (∀ x, i ≠ .ldStVx x) → exec i (s.setSt b) = withSt b (exec i s)
  | .ret, _ => execRet_setSt s b
  | .call nnn, _ => execCall_setSt nnn s b
  | .seImm _ _, _ => congrArg Host.Outcome.next (skipIf_setSt _ s b)
  | .sneImm _ _, _ => congrArg Host.Outcome.next (skipIf_setSt _ s b)
  | .seReg _ _, _ => congrArg Host.Outcome.next (skipIf_setSt _ s b)
  | .sneReg _ _, _ => congrArg Host.Outcome.next (skipIf_setSt _ s b)
  | .skp _, _ => congrArg Host.Outcome.next (skipIf_setSt _ s b)
  | .sknp _, _ => congrArg Host.Outcome.next (skipIf_setSt _ s b)
  | .drw _ _ _, _ => checkRange_withSt rfl
  | .ldB _, _ => checkRange_withSt rfl
  | .storeRegs _, _ => checkRange_withSt rfl
  | .loadRegs _, _ => checkRange_withSt rfl
  | .addI x, _ => execAddI_setSt x s b
  | .ldVxK x, _ => execLdVxK_setSt x s b
  | .ldStVx x, h => absurd rfl (h x)
  | .cls, _ | .jp _, _ | .jpV0 _, _ | .ldI _, _ | .ldF _, _ | .ldVxDt _, _ | .ldDtVx _, _ => rfl
  | .ldImm _ _, _ | .addImm _ _, _ | .ldReg _ _, _ | .orReg _ _, _ | .andReg _ _, _ | .xorReg _ _, _ => rfl
  | .addReg _ _, _ | .subReg _ _, _ | .shr _ _, _ | .subnReg _ _, _ | .shl _ _, _ | .rnd _ _, _ => rfl

/-- Settles O55: LD ST, Vx overwrites ST, and every other instruction carries it through. -/
theorem soundTimerIsReadByNoInstruction : Obligations.SoundTimerIsReadByNoInstruction := by
  intro i s b
  by_cases hi : ∃ x, i = .ldStVx x
  · obtain ⟨x, rfl⟩ := hi
    have heq : exec (.ldStVx x) (s.setSt b) = exec (.ldStVx x) s := execLdStVx_setSt x s b
    exact ⟨fun t h => ⟨t, heq.trans h, .refl _ t⟩, fun f h => heq.trans h⟩
  · have heq := exec_setSt s b i (not_exists.mp hi)
    refine ⟨fun t h => ⟨t.setSt b, ?_, unchanged_setSt t b⟩, fun f h => ?_⟩ <;> rw [heq, h] <;> rfl

/-! ### The invariant, with its clause on `pc` and `inc_pc` left open

`Inv` holds between operations. Inside a Step, between Execute and Advance, only its clause on `pc` and `inc_pc` differs, so the
updates of the state are said once for every such clause. -/

/-- The invariant with the clause `ok` on `pc` and `inc_pc`. -/
structure InvWith (ok : Word → Bool → Prop) (s : State) : Prop where
  memWf : s.memWf = true
  pcOk : ok s.pc s.incPc
  indexBound : s.index.toNat ≤ 0x1000
  entryBound : ∀ e ∈ s.stack, e.toNat ≤ 0x0FFE
  depthBound : stackFits s.stackDepth s.stack

/-- The clause between operations (R14, R84). -/
def PcBetweenOps (pc : Word) (incPc : Bool) : Prop := pc.toNat ≤ 0x10FE ∧ incPc = true

/-- The clause between Execute and Advance: Advance will not pass the bound of R14. -/
def PcBeforeAdvance (pc : Word) (incPc : Bool) : Prop := pc.toNat + (if incPc then 2 else 0) ≤ 0x10FE

theorem PcBeforeAdvance.of_le {pc : Word} (h : pc.toNat ≤ 0x10FC) (incPc : Bool) : PcBeforeAdvance pc incPc := by
  unfold PcBeforeAdvance
  split <;> omega

/-- Adding 2 modulo 2^16 adds 2 at most. -/
theorem add_two_toNat_le (pc : Word) : (pc + 2).toNat ≤ pc.toNat + 2 := Nat.mod_le _ _

theorem inv_iff_invWith {s : State} : Inv s ↔ InvWith PcBetweenOps s :=
  ⟨fun ⟨hmem, hpc, hindex, hentry, hdepth, hinc⟩ => ⟨hmem, ⟨hpc, hinc⟩, hindex, hentry, hdepth⟩,
    fun ⟨hmem, ⟨hpc, hinc⟩, hindex, hentry, hdepth⟩ => ⟨hmem, hpc, hindex, hentry, hdepth, hinc⟩⟩

section
variable {ok ok' : Word → Bool → Prop} {s : State}

theorem InvWith.setDisp (h : InvWith ok s) (d : Display) : InvWith ok (s.setDisp d) := { h with }
theorem InvWith.setRegs (h : InvWith ok s) (v : Vector Byte 16) : InvWith ok (s.setRegs v) := { h with }
theorem InvWith.setV (h : InvWith ok s) (x : Reg) (b : Byte) : InvWith ok (s.setV x b) := h.setRegs _
theorem InvWith.setDt (h : InvWith ok s) (b : Byte) : InvWith ok (s.setDt b) := { h with }
theorem InvWith.setSt (h : InvWith ok s) (b : Byte) : InvWith ok (s.setSt b) := { h with }
theorem InvWith.setKey (h : InvWith ok s) (k : Option Key) : InvWith ok (s.setKey k) := { h with }
theorem InvWith.setDraws (h : InvWith ok s) (n : Nat) : InvWith ok (s.setDraws n) := { h with }

theorem InvWith.setResultFlag (h : InvWith ok s) (x : Reg) (r f : Byte) : InvWith ok (setResultFlag s x r f) :=
  (h.setV x r).setV vf f

theorem InvWith.setIndex (h : InvWith ok s) {w : Word} (hw : w.toNat ≤ 0x1000) : InvWith ok (s.setIndex w) :=
  { h with indexBound := hw }

theorem InvWith.setPc (h : InvWith ok s) {w : Word} (hw : ok' w s.incPc) : InvWith ok' (s.setPc w) :=
  { h with pcOk := hw }

theorem InvWith.setIncPc (h : InvWith ok s) {b : Bool} (hb : ok' s.pc b) : InvWith ok' (s.setIncPc b) :=
  { h with pcOk := hb }

theorem InvWith.storeBytes (h : InvWith ok s) {a : Nat} {bs : List Byte} (ha : a + bs.length ≤ Config.memTop + 1) :
    InvWith ok (s.storeBytes a bs) := { h with memWf := State.storeBytes_memWf h.memWf ha }

/-- An entry pushed where there is room keeps within STACK_DEPTH (R22). -/
theorem InvWith.push (h : InvWith ok s) {w : Word} (hw : w.toNat ≤ 0x0FFE)
    (hroom : s.stackDepth ≠ some s.stack.length) : InvWith ok (s.setStack (s.stack ++ [w])) :=
  { h with
    entryBound := fun e he => (List.mem_append.mp he).elim (h.entryBound e) fun he => List.mem_singleton.mp he ▸ hw
    depthBound := fun N hN => by
      have hle : s.stack.length ≤ N := h.depthBound N hN
      have hne : s.stack.length ≠ N := fun e => hroom (e ▸ hN)
      simp only [State.setStack_stack, List.length_append, List.length_singleton]
      omega }

/-- A pop keeps within STACK_DEPTH, and gives the address of a CALL (R22, R14). -/
theorem InvWith.pop (h : InvWith ok s) {l : List Word} {e : Word} (hs : s.stack = l ++ [e]) :
    InvWith ok (s.setStack l) ∧ e.toNat ≤ 0x0FFE :=
  ⟨{ h with
      entryBound := fun w hw => h.entryBound w (hs ▸ List.mem_append_left _ hw)
      depthBound := fun N hN => by
        have hle : s.stack.length ≤ N := h.depthBound N hN
        rw [hs, List.length_append] at hle
        exact Nat.le_of_add_right_le hle },
    h.entryBound e (hs ▸ List.mem_append_right _ (List.mem_singleton_self e))⟩

theorem InvWith.jumpTo (h : InvWith ok s) {w : Word} (hw : w.toNat ≤ 0x10FE) :
    InvWith PcBeforeAdvance (jumpTo w s) :=
  (h.setPc (ok' := fun pc _ => pc.toNat ≤ 0x10FE) hw).setIncPc hw

/-- Advance leads from the clause inside a Step to the one between operations (R83, R84). -/
theorem InvWith.advance (h : InvWith PcBeforeAdvance s) : Inv (advance s) := by
  have hle : (if s.incPc then s.pc + 2 else s.pc).toNat ≤ s.pc.toNat + (if s.incPc then 2 else 0) := by
    split
    · exact add_two_toNat_le s.pc
    · exact Nat.le_refl _
  have hpc : (if s.incPc then s.pc + 2 else s.pc).toNat ≤ 0x10FE := hle.trans h.pcOk
  rw [advance_eq, inv_iff_invWith]
  exact (h.setPc (ok' := fun pc _ => pc.toNat ≤ 0x10FE) hpc).setIncPc ⟨hpc, rfl⟩

end

/-! ### R14, R16, R22, R84: the invariant -/

theorem addrWord_le (nnn : Addr12) : (addrWord nnn).toNat ≤ 0x0FFF := by
  rw [addrWord_toNat]; have := nnn.isLt; omega

theorem addrWord_add_byteWord_le (nnn : Addr12) (b : Byte) : (addrWord nnn + byteWord b).toNat ≤ 0x10FE := by
  rw [BitVec.toNat_add, addrWord_toNat, byteWord_toNat]; have := nnn.isLt; have := b.isLt; omega

theorem digitAddr_le (b : Byte) : (digitAddr b).toNat ≤ 0x1000 := by
  have hb : 5 * b.toNat ≤ 0x1000 := by have := b.isLt; omega
  rw [digitAddr, BitVec.toNat_mul, byteWord_toNat]
  exact (Nat.mod_le _ _).trans hb

section
variable {s : State} (h : InvWith PcBeforeAdvance s)
include h

theorem skipIf_invWith (hpc : s.pc.toNat ≤ 0x0FFE) (taken : Bool) : InvWith PcBeforeAdvance (skipIf taken s) := by
  rw [skipIf_eq]
  refine h.setPc (.of_le ?_ _)
  split
  · have := add_two_toNat_le s.pc; omega
  · omega

theorem execRet_invWith : OnNext (InvWith PcBeforeAdvance) (execRet s) :=
  .popPc fun l e hs => by
    obtain ⟨hpop, he⟩ := h.pop hs
    exact hpop.setPc (.of_le (he.trans (by decide)) _)

theorem execAddI_invWith (x : Reg) : OnNext (InvWith PcBeforeAdvance) (execAddI x s) := by
  rcases Nat.lt_or_ge 0x1000 (s.index.toNat + (s.getV x).toNat) with hsum | hsum
  · rw [execAddI_of_gt hsum]
    exact .next ((h.setIndex (by decide)).setV vf _)
  · rw [execAddI_of_le hsum]
    exact .next (h.setIndex ((BitVec.toNat_ofNat _ _).trans_le ((Nat.mod_le _ _).trans hsum)))

theorem execLdVxK_invWith (hpc : s.pc.toNat ≤ 0x0FFE) (x : Reg) :
    OnNext (InvWith PcBeforeAdvance) (execLdVxK x s) := by
  cases hk : s.key with
  | none =>
    rw [execLdVxK_of_none hk]
    exact .next (h.setIncPc (.of_le (hpc.trans (by decide)) _))
  | some k =>
    rw [execLdVxK_of_some hk]
    exact .next (h.setV x _)

/-- Execute of an instruction that was fetched keeps the invariant as it stands before Advance. -/
theorem exec_invWith (hpc : s.pc.toNat ≤ 0x0FFE) : ∀ i, OnNext (InvWith PcBeforeAdvance) (exec i s)
  | .cls => .next (h.setDisp _)
  | .ret => execRet_invWith h
  | .jp nnn => .next (h.jumpTo ((addrWord_le nnn).trans (by decide)))
  | .call nnn => .push fun hroom => (h.push hpc hroom).jumpTo ((addrWord_le nnn).trans (by decide))
  | .seImm _ _ => .next (skipIf_invWith h hpc _)
  | .sneImm _ _ => .next (skipIf_invWith h hpc _)
  | .seReg _ _ => .next (skipIf_invWith h hpc _)
  | .ldImm x _ => .next (h.setV x _)
  | .addImm x _ => .next (h.setV x _)
  | .ldReg x _ => .next (h.setV x _)
  | .orReg x _ => .next (h.setV x _)
  | .andReg x _ => .next (h.setV x _)
  | .xorReg x _ => .next (h.setV x _)
  | .addReg x _ => .next (h.setResultFlag x _ _)
  | .subReg x _ => .next (h.setResultFlag x _ _)
  | .shr x _ => .next (h.setResultFlag x _ _)
  | .subnReg x _ => .next (h.setResultFlag x _ _)
  | .shl x _ => .next (h.setResultFlag x _ _)
  | .sneReg _ _ => .next (skipIf_invWith h hpc _)
  | .ldI nnn => .next (h.setIndex ((addrWord_le nnn).trans (by decide)))
  | .jpV0 nnn => .next (h.jumpTo (addrWord_add_byteWord_le nnn _))
  | .rnd x _ => .next ((h.setV x _).setDraws _)
  | .drw _ _ _ => .checkRange fun _ => .next ((h.setDisp _).setV vf _)
  | .skp _ => .next (skipIf_invWith h hpc _)
  | .sknp _ => .next (skipIf_invWith h hpc _)
  | .ldVxDt x => .next (h.setV x _)
  | .ldVxK x => execLdVxK_invWith h hpc x
  | .ldDtVx _ => .next (h.setDt _)
  | .ldStVx _ => .next (h.setSt _)
  | .addI x => execAddI_invWith h x
  | .ldF _ => .next (h.setIndex (digitAddr_le _))
  | .ldB _ => .checkRange fun hr => .next (h.storeBytes (hr.resolve_left (by decide)))
  | .storeRegs x => .checkRange fun hr =>
      .next (h.storeBytes (blockOf_length s x ▸ hr.resolve_left (Nat.succ_ne_zero _)))
  | .loadRegs _ => .checkRange fun _ => .next (h.setRegs _)

end

/-- Where a word can be fetched, the invariant leaves Advance its room. -/
theorem Inv.beforeAdvance {s : State} (h : Inv s) (hpc : s.pc.toNat ≤ 0x0FFE) : InvWith PcBeforeAdvance s :=
  { inv_iff_invWith.mp h with pcOk := .of_le (hpc.trans (by decide)) _ }

/-- Settles O58: Fetch bounds `pc`, Execute keeps the invariant as it stands before Advance, and Advance restores it. -/
theorem stepKeepsTheInvariant : Obligations.StepKeepsTheInvariant := by
  intro s t hs h
  obtain ⟨op, u, hfetch, hexec, rfl⟩ := step_eq_next h
  have hpc : s.pc.toNat ≤ 0x0FFE := (fetch_eq_ok hfetch).1
  have hmid : InvWith PcBeforeAdvance s := hs.beforeAdvance hpc
  obtain ⟨i, -, hi⟩ | ⟨-, rfl⟩ := execute_eq_next hexec
  · exact (exec_invWith hmid hpc i u hi).advance
  · exact hmid.advance

/-- Settles O57: memory lists nothing, the stack is empty, and `pc` is the entry point. -/
theorem invariantHoldsAtReset : Obligations.InvariantHoldsAtReset := fun font depth =>
  { memWf := Memory.reset_wf font depth
    pcBound := by simp [State.resetWith]
    indexBound := by simp [State.resetWith]
    entryBound := by simp [State.resetWith]
    depthBound := fun N _ => Nat.zero_le N
    incPcTrue := rfl }

/-- A property of every next state, and of the state itself, is one of the state after the operation (R203). -/
theorem after_of_onNext {P : State → Prop} {op : Operation} {s : State} (hs : P s) (h : OnNext P (perform op s)) :
    P (after op s) := by
  unfold after
  cases ho : perform op s with
  | next t => exact h t ho
  | fault f => exact hs
  | refused r => exact hs

/-- Only a ROM that fits is loaded (R233). -/
theorem OnNext.doLoad {P : State → Prop} {bytes : List Byte} {s : State}
    (h : Config.loadAddr + bytes.length ≤ Config.memTop + 1 → P (s.storeBytes Config.loadAddr bytes)) :
    OnNext P (doLoad bytes s) := by
  unfold Machine.doLoad
  split
  · intro t e; cases e
  · next hlen => exact .next (h (Nat.add_le_add_left (Nat.le_of_not_lt hlen) Config.loadAddr))

/-- Every operation that answers keeps the invariant. -/
theorem perform_inv {s : State} (hs : Inv s) : ∀ op, OnNext Inv (perform op s)
  | .reinit => .next (inv_iff_invWith.mpr
      ((inv_iff_invWith.mp (invariantHoldsAtReset s.font s.stackDepth)).setDraws s.draws))
  | .load _ => .doLoad fun hlen => inv_iff_invWith.mpr ((inv_iff_invWith.mp hs).storeBytes hlen)
  | .step => fun t h => stepKeepsTheInvariant s t hs h
  | .tick => .next (inv_iff_invWith.mpr (((inv_iff_invWith.mp hs).setDt _).setSt _))
  | .pressKey k => .next (inv_iff_invWith.mpr ((inv_iff_invWith.mp hs).setKey k))
  | .readDisplay => .next hs
  | .readState => .next hs

/-- Settles O59: an operation that answers keeps the invariant, and one that faults keeps the state. -/
theorem everyOperationKeepsTheInvariant : Obligations.EveryOperationKeepsTheInvariant :=
  fun op _ hs => after_of_onNext hs (perform_inv hs op)

/-! ### The parameters, and every state a schedule reaches -/

/-- The parameters FONT and STACK_DEPTH have these values (R7). -/
def HasParameters (font : Font) (depth : Option Nat) (s : State) : Prop := s.font = font ∧ s.stackDepth = depth

theorem not_writesOf_font (i : Instr) (s : State) : ¬ writesOf i s .font := by
  cases i <;> simp [writesOf]

theorem not_writesOf_stackDepth (i : Instr) (s : State) : ¬ writesOf i s .stackDepth := by
  cases i <;> simp [writesOf]

/-- A Step writes no parameter: Execute by its frame (R26), Advance by its own. -/
theorem step_keeps_parameters {font : Font} {depth : Option Nat} {s : State} (hs : HasParameters font depth s) :
    OnNext (HasParameters font depth) (step s) := by
  intro t h
  obtain ⟨op, u, -, hexec, rfl⟩ := step_eq_next h
  suffices hu : HasParameters font depth u by rw [advance_eq]; exact hu
  obtain ⟨i, -, hi⟩ | ⟨-, rfl⟩ := execute_eq_next hexec
  · have hframe : UnchangedBut (writesOf i s) s u := exec_frame s i u hi
    have hfont : u.font = s.font := hframe .font (not_writesOf_font i s)
    have hdepth : u.stackDepth = s.stackDepth := hframe .stackDepth (not_writesOf_stackDepth i s)
    exact ⟨hfont.trans hs.1, hdepth.trans hs.2⟩
  · exact hs

/-- No operation writes a parameter (R7, R25). -/
theorem perform_keeps_parameters {font : Font} {depth : Option Nat} {s : State} (hs : HasParameters font depth s) :
    ∀ op, OnNext (HasParameters font depth) (perform op s)
  | .reinit => .next hs
  | .load _ => .doLoad fun _ => hs
  | .step => step_keeps_parameters hs
  | .tick => .next hs
  | .pressKey _ => .next hs
  | .readDisplay => .next hs
  | .readState => .next hs

/-- What every operation keeps holds in every state a schedule reaches. -/
theorem runAll_keeps {P : State → Prop} (hP : ∀ op s, P s → P (after op s)) (ops : List Operation) {s : State} (hs : P s) :
    P (runAll ops s) := by
  induction ops generalizing s with
  | nil => exact hs
  | cons op ops ih => exact ih (hP op s hs)

/-- Settles O60: the invariant and the parameters hold at reset, and every operation of the schedule keeps both. -/
theorem reachableStatesKeepTheirBounds : Obligations.ReachableStatesKeepTheirBounds := by
  rintro ops font depth s rfl
  obtain ⟨hmem, hpc, hindex, -, hdepth, hinc⟩ :=
    runAll_keeps everyOperationKeepsTheInvariant ops (invariantHoldsAtReset font depth)
  obtain ⟨hfont, hpar⟩ : HasParameters font depth (runAll ops (State.resetWith font depth)) :=
    runAll_keeps (fun op _ hs => after_of_onNext hs (perform_keeps_parameters hs op)) ops ⟨rfl, rfl⟩
  exact ⟨hpc, hindex, hinc, hmem, fun N hN => hdepth N (hpar.trans hN), hfont, hpar⟩

end Sys2Proof

/-! # Memory: a store is what the next Fetch reads (20_memory) -/

namespace Sys2Proof

open Machine

/-- A block that ends within memory is stored (R144, R146). -/
theorem execStoreRegs_of_le {x : Reg} {s : State} (h : s.index.toNat + x.val ≤ 0x0FFF) :
    execStoreRegs x s = .next (s.storeBytes (dataAddr s 0) (blockOf s x)) :=
  checkRange_of_le (Nat.succ_le_succ h)

/-- The cell `I + k` of a stored block holds `V[k]` (R144). -/
theorem storeBytes_blockOf_byteAt {x : Reg} {s : State} (hs : s.memWf = true) (h : s.index.toNat + x.val ≤ 0x0FFF)
    (k : Reg) (hk : k ≤ x) : (s.storeBytes (dataAddr s 0) (blockOf s x)).byteAt (dataAddr s k.val) = s.getV k := by
  have hlen : (blockOf s x).length = x.val + 1 := blockOf_length s x
  have hkLen : k.val < (blockOf s x).length := hlen ▸ Nat.lt_succ_of_le hk
  have hrange : dataAddr s 0 + (blockOf s x).length ≤ Config.memTop + 1 := hlen ▸ Nat.succ_le_succ h
  exact (State.storeBytes_byteAt_inside hs hrange k.val hkLen).trans (blockOf_getElem s x k.val hkLen k.isLt)

/-- Two neighbouring cells of a stored block hold, as a big-endian word, their two registers (R46, R144). -/
theorem storeBytes_blockOf_wordAt {x : Reg} {s : State} (hs : s.memWf = true) (h : s.index.toNat + x.val ≤ 0x0FFF)
    {k : Nat} (hk : k + 1 ≤ x.val) :
    (s.storeBytes (dataAddr s 0) (blockOf s x)).wordAt (dataAddr s k) =
      s.getV ⟨k, by omega⟩ ++ s.getV ⟨k + 1, by omega⟩ :=
  congrArg₂ wordOfBytes (storeBytes_blockOf_byteAt hs h ⟨k, by omega⟩ (Nat.le_of_succ_le hk))
    (storeBytes_blockOf_byteAt hs h ⟨k + 1, by omega⟩ hk)

/-- Advance writes no memory (R83). -/
@[simp] theorem advance_wordAt (s : State) (a : Nat) : (advance s).wordAt a = s.wordAt a := by
  rw [advance_eq]; rfl

/-- Advance reads no memory, so a store before it does not change where it leads (R83). -/
@[simp] theorem advance_storeBytes_pc (s : State) (a : Nat) (bs : List Byte) :
    (advance (s.storeBytes a bs)).pc = (advance s).pc := by
  rw [advance_eq, advance_eq]; rfl

/-- Settles O34: Advance leaves the stored block alone, so the Fetch reads two neighbouring cells of it, which are in range
because the block is. -/
theorem storedBytesAreFetchedNext : Obligations.StoredBytesAreFetchedNext := by
  intro x s k hk hs hrange hpc
  refine ⟨_, execStoreRegs_of_le hrange, ?_⟩
  have hfetch : (advance (s.storeBytes (dataAddr s 0) (blockOf s x))).pc.toNat ≤ 0x0FFE := by
    rw [advance_storeBytes_pc, hpc, dataAddr]; omega
  rw [fetch_ok hfetch, advance_storeBytes_pc, hpc, advance_wordAt, storeBytes_blockOf_wordAt hs hrange hk]

end Sys2Proof

/-! # Encoding: the encoder, the dispatch and the opcode map agree (30_encoding) -/

namespace Sys2Proof

/-! ### What decoding answers, through the dispatch (R63, R67) -/

theorem decodeWord_eq_ok_iff {op : Word} {i : Instr} : decodeWord op = .ok i ↔ dispatchWord op = some i := by
  unfold decodeWord; cases dispatchWord op <;> simp

theorem decodeWord_eq_error_iff {op : Word} {e : DecodeError} :
    decodeWord op = .error e ↔ dispatchWord op = none ∧ e = .unknownOpcode op := by
  unfold decodeWord; cases dispatchWord op <;> simp [eq_comm]

/-- The two bytes of an encoding form its opcode again (R46), whatever follows them. -/
theorem decode_encode_append {i : Instr} (h : dispatchWord (encodeWord i) = some i) (rest : List Byte) :
    decode (encode i ++ rest) = .ok (i, rest) := by
  simp [encode, decode, decodeWord_eq_ok_iff.mpr h]

/-! ### Decode of encode -/

/-- The dispatch leads back to the instruction: its family, then the sub-opcode of that family, and every operand is a
field (R61, R63). The row count of DRW is the one operand that must fit (R62). -/
theorem dispatchWord_encodeWord {i : Instr} (hi : i.wellFormed = true) : dispatchWord (encodeWord i) = some i := by
  cases i with
  | cls | ret => rfl
  | jp | call | ldI | jpV0 | seImm | sneImm | ldImm | addImm | rnd | seReg | sneReg =>
    simp [encodeWord, dispatchWord]
  | ldReg | orReg | andReg | xorReg | addReg | subReg | shr | subnReg | shl =>
    simp [encodeWord, dispatchWord, decodeFam8]
  | drw x y n =>
    have hn : n % 16 = n := Nat.mod_eq_of_lt (Nat.lt_succ_of_le (of_decide_eq_true hi))
    simp [encodeWord, dispatchWord, hn]
  | skp | sknp => simp [encodeWord, dispatchWord, decodeFamE]
  | ldVxDt | ldVxK | ldDtVx | ldStVx | addI | ldF | ldB | storeRegs | loadRegs =>
    simp [encodeWord, dispatchWord, decodeFamF]

/-- Settles O4: the bytes of an encoding form its opcode, and the dispatch leads from the opcode back to the instruction. -/
theorem decodeOfEncodeIsTheInstruction : Obligations.DecodeOfEncodeIsTheInstruction :=
  fun _ rest hi => decode_encode_append (dispatchWord_encodeWord hi) rest

/-- Settles O1: every sample but the last is the encoding of its instruction, so O4 decodes it; the last has family 0 and is
neither `00E0` nor `00EE`. -/
theorem sampleWordsDecode : Obligations.SampleWordsDecode :=
  have roundTrip := decodeOfEncodeIsTheInstruction
  ⟨roundTrip .cls [] rfl, roundTrip (.jp 0xABC) [] rfl, roundTrip (.subnReg 1 2) [] rfl, roundTrip (.ldI 0xFFF) [] rfl,
    roundTrip (.drw 1 2 15) [] rfl, roundTrip (.skp 1) [] rfl, roundTrip (.loadRegs 2) [] rfl, rfl⟩

/-! ### A word is its fields (R61) -/

theorem wordAddr_eq_iff {f : Nibble} {a : Addr12} {op : Word} :
    wordAddr f a = op ↔ fieldFam op = f ∧ fieldNNN op = a := by
  constructor
  · rintro rfl; simp
  · rintro ⟨rfl, rfl⟩
    apply BitVec.eq_of_toNat_eq
    rw [wordAddr_toNat, fieldFam_toNat, fieldNNN_toNat]; omega

theorem wordRegByte_eq_iff {f : Nibble} {x : Reg} {nn : Byte} {op : Word} :
    wordRegByte f x nn = op ↔ fieldFam op = f ∧ fieldX op = x ∧ fieldNN op = nn := by
  constructor
  · rintro rfl; simp
  · rintro ⟨rfl, rfl, rfl⟩
    apply BitVec.eq_of_toNat_eq
    rw [wordRegByte_toNat, fieldFam_toNat, fieldX_val, fieldNN_toNat]; omega

theorem wordRegReg_eq_iff {f n : Nibble} {x y : Reg} {op : Word} :
    wordRegReg f x y n = op ↔ fieldFam op = f ∧ fieldX op = x ∧ fieldY op = y ∧ fieldN op = n := by
  constructor
  · rintro rfl; simp
  · rintro ⟨rfl, rfl, rfl, rfl⟩
    apply BitVec.eq_of_toNat_eq
    rw [wordRegReg_toNat, fieldFam_toNat, fieldX_val, fieldY_val, fieldN_toNat]; omega

/-! ### What each mask of the opcode map compares (R64) -/

section
variable {op p : Word} {g : Word → Instr}

theorem selects_iff {m : Word} : (OpcodeRow.mk m p g).selects op = true ↔ op &&& m = p := beq_iff_eq

/-- A row of family 0 compares the whole word, so in particular the family. -/
@[simp] theorem selects_maskFFFF :
    (OpcodeRow.mk 0xFFFF#16 p g).selects op = true ↔ fieldFam op = p.extractLsb' 12 4 ∧ p = op := by
  rw [selects_iff, show op &&& 0xFFFF#16 = op from BitVec.and_allOnes, eq_comm]
  exact ⟨fun h => ⟨h ▸ rfl, h⟩, And.right⟩

@[simp] theorem selects_maskF000 :
    (OpcodeRow.mk 0xF000#16 p g).selects op = true ↔ fieldFam op = p.extractLsb' 12 4 ∧ p.extractLsb' 0 12 = 0 := by
  obtain ⟨f, nnn, rfl⟩ : ∃ f nnn, wordAddr f nnn = op := ⟨_, _, wordAddr_eq_iff.mpr ⟨rfl, rfl⟩⟩
  rw [selects_iff, show _ &&& 0xF000#16 = _ from Laws.RowMatch.addr f nnn, fieldFam_wordAddr, eq_comm (a := f)]
  exact wordAddr_eq_iff

@[simp] theorem selects_maskF0FF :
    (OpcodeRow.mk 0xF0FF#16 p g).selects op = true ↔
      fieldFam op = p.extractLsb' 12 4 ∧ p.extractLsb' 8 4 = 0 ∧ fieldNN op = p.extractLsb' 0 8 := by
  obtain ⟨f, x, nn, rfl⟩ : ∃ f x nn, wordRegByte f x nn = op := ⟨_, _, _, wordRegByte_eq_iff.mpr ⟨rfl, rfl, rfl⟩⟩
  rw [selects_iff, show _ &&& 0xF0FF#16 = _ from Laws.RowMatch.regByte f x nn, fieldFam_wordRegByte,
    fieldNN_wordRegByte, eq_comm (a := f), eq_comm (a := nn), ← BitVec.toFin_inj (x := p.extractLsb' 8 4)]
  exact wordRegByte_eq_iff (x := 0)

@[simp] theorem selects_maskF00F :
    (OpcodeRow.mk 0xF00F#16 p g).selects op = true ↔ fieldFam op = p.extractLsb' 12 4 ∧
      p.extractLsb' 8 4 = 0 ∧ p.extractLsb' 4 4 = 0 ∧ fieldN op = p.extractLsb' 0 4 := by
  obtain ⟨f, x, y, n, rfl⟩ : ∃ f x y n, wordRegReg f x y n = op :=
    ⟨_, _, _, _, wordRegReg_eq_iff.mpr ⟨rfl, rfl, rfl, rfl⟩⟩
  rw [selects_iff, show _ &&& 0xF00F#16 = _ from Laws.RowMatch.regReg f x y n, fieldFam_wordRegReg,
    fieldN_wordRegReg, eq_comm (a := f), eq_comm (a := n), ← BitVec.toFin_inj (x := p.extractLsb' 8 4),
    ← BitVec.toFin_inj (x := p.extractLsb' 4 4)]
  exact wordRegReg_eq_iff (x := 0) (y := 0)

end

/-! ### The dispatch is the lookup in the opcode map (R63, R64) -/

/-- The sixteen families, to split on as `dispatchWord` does (R63). -/
theorem nibble_cases (f : Nibble) :
    f = 0x0 ∨ f = 0x1 ∨ f = 0x2 ∨ f = 0x3 ∨ f = 0x4 ∨ f = 0x5 ∨ f = 0x6 ∨ f = 0x7 ∨
    f = 0x8 ∨ f = 0x9 ∨ f = 0xA ∨ f = 0xB ∨ f = 0xC ∨ f = 0xD ∨ f = 0xE ∨ f = 0xF := by
  revert f; decide

/-- The lookup in a table goes row by row. -/
theorem lookup_cons (r : OpcodeRow) (rows : List OpcodeRow) (op : Word) :
    ((r :: rows).find? (·.selects op)).map (·.instr op) =
      if r.selects op then some (r.instr op) else (rows.find? (·.selects op)).map (·.instr op) := by
  by_cases h : r.selects op <;> simp [h]

/-- The dispatch of R63 is the lookup in the map of R64: within one family both compare the same sub-opcodes, in the same
order. -/
theorem dispatchWord_eq_lookup (op : Word) :
    dispatchWord op = (opcodeMap.find? (·.selects op)).map (·.instr op) := by
  simp only [opcodeMap, opcodeMapLow, opcodeMapAlu, opcodeMapMid, opcodeMapF, List.cons_append, List.nil_append,
    lookup_cons, BitVec.ofNat_eq_ofNat, selects_maskFFFF, selects_maskF000, selects_maskF0FF, selects_maskF00F]
  unfold dispatchWord
  rcases nibble_cases (fieldFam op) with h | h | h | h | h | h | h | h | h | h | h | h | h | h | h | h <;>
    simp [h, decodeFam0, decodeFam8, decodeFamE, decodeFamF, eq_comm (a := op)]

/-! ### Encode of decode -/

/-- Each row of the map decodes exactly the fields that the encoder puts together again; the fixed bits are those the row
compares (R61, R64). -/
theorem encodeWord_instr_of_selects {op : Word} :
    ∀ r ∈ opcodeMap, r.selects op = true → encodeWord (r.instr op) = op ∧ (r.instr op).wellFormed = true := by
  have hn : (fieldN op).toNat ≤ 15 := Nat.le_of_lt_succ (fieldN op).isLt
  simp +contextual [opcodeMap, opcodeMapLow, opcodeMapAlu, opcodeMapMid, opcodeMapF, encodeWord, Instr.wellFormed,
    wordAddr_eq_iff, wordRegByte_eq_iff, wordRegReg_eq_iff, hn]

/-- Settles O5: a word that decodes selects a row of the map, and that row's instruction encodes as the word. -/
theorem encodeOfDecodeIsTheWord : Obligations.EncodeOfDecodeIsTheWord := by
  intro op i h
  rw [decodeWord_eq_ok_iff, dispatchWord_eq_lookup, Option.map_eq_some_iff] at h
  obtain ⟨r, hfind, rfl⟩ := h
  have hselects : r.selects op = true := by simpa using List.find?_some hfind
  exact encodeWord_instr_of_selects r (List.mem_of_find?_eq_some hfind) hselects

/-! ### At most one row is selected (R64) -/

/-- Two rows of the map differ in a bit that both compare. -/
theorem opcodeMap_disjoint : opcodeMap.Pairwise fun a b => a.pattern &&& b.mask ≠ b.pattern &&& a.mask := by
  decide

/-- Two rows that one word selects agree in every bit that both compare. -/
theorem pattern_and_mask_eq_of_selects {a b : OpcodeRow} {op : Word} (ha : a.selects op = true)
    (hb : b.selects op = true) : a.pattern &&& b.mask = b.pattern &&& a.mask := by
  rw [← selects_iff.mp ha, ← selects_iff.mp hb, BitVec.and_assoc, BitVec.and_comm a.mask, BitVec.and_assoc]

theorem filter_selects_ne_two_rows {op : Word} {a b : OpcodeRow} {rest : List OpcodeRow} :
    opcodeMap.filter (fun r => r.selects op) ≠ a :: b :: rest := by
  intro h
  have hsel : ∀ r ∈ a :: b :: rest, r.selects op = true := by
    intro r hr
    rw [← h] at hr
    exact (List.mem_filter.mp hr).2
  have hdisj := opcodeMap_disjoint.filter fun r : OpcodeRow => r.selects op
  rw [h] at hdisj
  exact List.rel_of_pairwise_cons hdisj (.head _) (pattern_and_mask_eq_of_selects (hsel a (by simp)) (hsel b (by simp)))

/-- Settles O2: the dispatch is the first selected row, and no word selects two. -/
theorem everyWordSelectsOneRowOrNone : Obligations.EveryWordSelectsOneRowOrNone := by
  refine ⟨rfl, fun op => ?_⟩
  have hdispatch := dispatchWord_eq_lookup op
  rw [← List.head?_filter] at hdispatch
  match hrows : opcodeMap.filter (fun r => r.selects op) with
  | [] => exact .inl ⟨hrows, decodeWord_eq_error_iff.mpr ⟨by rw [hdispatch, hrows]; rfl, rfl⟩⟩
  | [r] => exact .inr ⟨r, hrows, decodeWord_eq_ok_iff.mpr (by rw [hdispatch, hrows]; rfl)⟩
  | a :: b :: rest => exact absurd hrows filter_selects_ne_two_rows

/-! ### The unknown words (R67) -/

theorem decodeFam0_eq_none_iff {op : Word} : decodeFam0 op = none ↔ op ≠ 0x00E0 ∧ op ≠ 0x00EE := by
  simp [decodeFam0, ite_eq_iff]

theorem decodeFam8_eq_none_iff {op : Word} :
    decodeFam8 op = none ↔ fieldN op ∈ ([0x8, 0x9, 0xA, 0xB, 0xC, 0xD, 0xF] : List Nibble) := by
  simp only [decodeFam8, ite_eq_iff, reduceCtorEq, and_false, false_or, and_true]
  generalize fieldN op = n
  revert n
  decide

theorem decodeFamE_eq_none_iff {op : Word} : decodeFamE op = none ↔ fieldNN op ∉ ([0x9E, 0xA1] : List Byte) := by
  simp [decodeFamE, ite_eq_iff]

theorem decodeFamF_eq_none_iff {op : Word} :
    decodeFamF op = none ↔
      fieldNN op ∉ ([0x07, 0x0A, 0x15, 0x18, 0x1E, 0x29, 0x33, 0x55, 0x65] : List Byte) := by
  simp [decodeFamF, ite_eq_iff]

/-- The dispatch has no instruction for a word exactly when the arm of its family has none. -/
theorem dispatchWord_eq_none_iff {op : Word} : dispatchWord op = none ↔ unknownWord op := by
  unfold dispatchWord unknownWord
  rw [← decodeFam0_eq_none_iff, ← decodeFam8_eq_none_iff, ← decodeFamE_eq_none_iff, ← decodeFamF_eq_none_iff]
  rcases nibble_cases (fieldFam op) with h | h | h | h | h | h | h | h | h | h | h | h | h | h | h | h <;> simp [h]

/-- Settles O3: a word is rejected exactly when the dispatch has no instruction for it. -/
theorem unknownWordsAreThoseOfTheTable : Obligations.UnknownWordsAreThoseOfTheTable := by
  intro op
  simp only [decodeWord_eq_error_iff, exists_and_left, exists_eq, and_true, dispatchWord_eq_none_iff]

end Sys2Proof

/-! # The Step cycle: Fetch, Execute, Advance (40_step_cycle) -/

namespace Sys2Proof

open Machine

/-! ### The placed word is what the next Fetch reads (R46, R81) -/

/-- The two bytes of a word, stored high byte first, read back as that word (R46). -/
theorem storeBytes_wordAt_bytes {s : State} (hs : s.memWf = true) {a : Nat} (ha : a ≤ 0x0FFE) (op : Word) :
    (s.storeBytes a [firstByte op, secondByte op]).wordAt a = op := by
  have hbyte := State.storeBytes_byteAt_inside hs (bs := [firstByte op, secondByte op])
    (Nat.succ_le_succ (Nat.succ_le_succ ha))
  calc (s.storeBytes a [firstByte op, secondByte op]).wordAt a
      = wordOfBytes (firstByte op) (secondByte op) :=
        congrArg₂ wordOfBytes (hbyte 0 Nat.two_pos) (hbyte 1 Nat.one_lt_two)
    _ = op := wordOfBytes_bytes op

/-- A word stored at a `pc` that Fetch can read is fetched. -/
theorem fetch_storeBytes_bytes {s : State} (hs : s.memWf = true) (hpc : s.pc.toNat ≤ 0x0FFE) (op : Word) :
    fetch (s.storeBytes s.pc.toNat [firstByte op, secondByte op]) = .ok op := by
  rw [fetch_ok (by simpa using hpc), State.storeBytes_pc, storeBytes_wordAt_bytes hs hpc]

/-- Past the last address a Fetch can read the word is placed at 0x200 instead; both places are in range. -/
theorem fetch_placeAtPc {s : State} (hs : s.memWf = true) (op : Word) : fetch (placeAtPc s op) = .ok op := by
  unfold placeAtPc
  split
  · exact fetch_storeBytes_bytes (s := s.setPc 0x0200) hs (show (0x0200 : Word).toNat ≤ 0x0FFE by decide) op
  · next hpc => exact fetch_storeBytes_bytes hs (Nat.le_of_not_lt hpc) op

/-- The 16 bits of a word are the word. -/
theorem withFetchWord_toNat (s : State) (op : Word) : s.withFetchWord 16 op.toNat = placeAtPc s op := by
  rw [State.withFetchWord, Nat.mod_eq_of_lt op.isLt, BitVec.ofNat_toNat, BitVec.setWidth_eq]

/-- Settles O11: the host's word is placed by `placeAtPc`, which stores it where the next Fetch reads. -/
theorem placedWordIsFetched : Obligations.PlacedWordIsFetched := fun s op hs =>
  (congrArg fetch (withFetchWord_toNat s op)).trans (fetch_placeAtPc hs op)

/-! ### A Step is Execute of the fetched word, then Advance (R80, R82) -/

theorem step_of_fetch {s : State} {op : Word} (h : fetch s = .ok op) :
    step s = andThen (execute op s) fun t => .next (advance t) := by
  rw [step, h]

theorem execute_of_ok {op : Word} {i : Instr} (h : decodeWord op = .ok i) (s : State) : execute op s = exec i s := by
  rw [execute, h]

theorem execute_of_error {op : Word} {e : DecodeError} (h : decodeWord op = .error e) (s : State) :
    execute op s = .next s := by
  rw [execute, h]; rfl

/-- Decoding two bytes is decoding the word they form (R46, R60). -/
theorem decodeWord_of_decode_pair {first second : Byte} {i : Instr} {rest : List Byte}
    (h : decode [first, second] = .ok (i, rest)) : decodeWord (wordOfBytes first second) = .ok i := by
  simp only [decode] at h
  split at h
  · next hi => cases h; exact hi
  · cases h

/-- Settles O6: Fetch reads the word those two bytes form, and Execute of that word is the instruction's. -/
theorem stepRunsTheDecodedInstruction : Obligations.StepRunsTheDecodedInstruction := by
  intro s i hpc _ hdecode
  have hword : decodeWord (s.wordAt s.pc.toNat) = .ok i := decodeWord_of_decode_pair hdecode
  rw [step_of_fetch (fetch_ok hpc), execute_of_ok hword]

/-! ### Advance (R83) -/

@[simp] theorem advance_pc (s : State) : (advance s).pc = if s.incPc then s.pc + 2 else s.pc := by
  rw [advance_eq]; rfl

@[simp] theorem advance_incPc (s : State) : (advance s).incPc = true := rfl

theorem step_of_execute_next {s t : State} {op : Word} (hfetch : fetch s = .ok op) (hexec : execute op s = .next t) :
    step s = .next (advance t) := by
  rw [step_of_fetch hfetch, hexec, andThen_next]

/-- Settles O7: what Advance writes, its frame, and that every Step whose Execute answers ends with it. -/
theorem advanceAddsTwoUnlessSuppressed : Obligations.AdvanceAddsTwoUnlessSuppressed := by
  intro s
  refine ⟨?_, advance_incPc s, unchanged_advance s, fun _ _ => step_of_execute_next⟩
  rw [advance_pc, apply_ite BitVec.toNat, BitVec.toNat_add]
  rfl

/-! ### Fetch (R81) -/

/-- The byte at the lower address is the high one (R46). -/
theorem wordOfBytes_toNat (first second : Byte) :
    (wordOfBytes first second).toNat = 256 * first.toNat + second.toNat :=
  (append_toNat first second).trans (congrArg (· + second.toNat) (Nat.mul_comm ..))

/-- Settles O8: in range Fetch answers the word at `pc`, high byte first; past 0x0FFE it faults. -/
theorem fetchReadsBigEndianOrFaults : Obligations.FetchReadsBigEndianOrFaults := fun _ =>
  ⟨fun hpc => ⟨_, fetch_ok hpc, wordOfBytes_toNat _ _⟩, fetch_error⟩

/-! ### A word that selects no instruction (R86, R209) -/

theorem setIncPc_eq_self {s : State} {b : Bool} (h : s.incPc = b) : s.setIncPc b = s := by
  subst h; rfl

/-- An Advance that is not suppressed writes `pc` alone: `inc_pc` holds already. -/
theorem advance_of_incPc {s : State} (h : s.incPc = true) : advance s = s.setPc (s.pc + 2) := by
  rw [advance_eq, if_pos h]
  exact setIncPc_eq_self h

/-- A Step that answers returns its report (R89). -/
theorem statusOf_step_of_next {s t : State} (h : step s = .next t) : statusOf .step s = some (stepReport s) := by
  rw [statusOf, show perform .step s = .next t from h]
  rfl

theorem stepReport_of_error {s : State} {op : Word} {e : DecodeError} (hfetch : fetch s = .ok op)
    (hdecode : decodeWord op = .error e) : stepReport s = .unknownOpcode op s.pc := by
  simp only [stepReport, hfetch, hdecode]

/-- Settles O10: Execute answers the same state, so the Step is Advance alone, and it reports the word. -/
theorem unknownWordIsAReportedNoOp : Obligations.UnknownWordIsAReportedNoOp := by
  rintro s op hfetch ⟨e, hdecode⟩ hinc
  have hstep : step s = .next (s.setPc (s.pc + 2)) := by
    rw [step_of_execute_next hfetch (execute_of_error hdecode s), advance_of_incPc hinc]
  refine ⟨_, hstep, rfl, unchanged_setPc s _, ?_⟩
  rw [statusOf_step_of_next hstep, stepReport_of_error hfetch hdecode]

end Sys2Proof

/-! # Control transfer: jumps, calls, returns and skips (41_control_flow) -/

namespace Sys2Proof

open Machine

/-! ### The opcodes of the family (R63, R64) -/

/-- Every well-formed instruction is the one its opcode decodes to. -/
theorem decodeWord_encodeWord {i : Instr} (hi : i.wellFormed = true) : decodeWord (encodeWord i) = .ok i :=
  decodeWord_eq_ok_iff.mpr (dispatchWord_encodeWord hi)

/-- A word of the table of R67 is rejected by name. -/
theorem decodeWord_of_unknownWord {op : Word} (h : unknownWord op) : decodeWord op = .error (.unknownOpcode op) :=
  decodeWord_eq_error_iff.mpr ⟨dispatchWord_eq_none_iff.mpr h, rfl⟩

/-! ### Where an Advance leads (R83) -/

/-- A jump suppresses the Advance, so the Step ends at its target (R101). -/
@[simp] theorem advance_jumpTo_pc (target : Word) (s : State) : (advance (jumpTo target s)).pc = target := rfl

theorem advance_pc_of_incPc {s : State} (h : s.incPc = true) : (advance s).pc = s.pc + 2 := by
  rw [advance_pc, if_pos h]

/-! ### JP nnn and JP V0, nnn (R101, R107) -/

/-- Settles O12: the jump writes `pc` and `inc_pc`, and its target is `nnn` extended to 16 bits. -/
theorem jumpSetsPc : Obligations.JumpSetsPc := fun nnn s =>
  ⟨decodeWord_encodeWord (i := .jp nnn) rfl, jumpTo (addrWord nnn) s, rfl, addrWord_toNat nnn, rfl,
    unchanged_jumpTo s _, addrWord_toNat nnn⟩

/-- A 12-bit address and a byte add up without a carry out of 16 bits (R107, D4). -/
theorem addrWord_add_byteWord_toNat (nnn : Addr12) (b : Byte) :
    (addrWord nnn + byteWord b).toNat = nnn.toNat + b.toNat := by
  rw [BitVec.toNat_add, addrWord_toNat, byteWord_toNat]
  omega

/-- Settles O13: the jump goes to a sum that 16 bits hold. -/
theorem jumpWithOffsetSetsPc : Obligations.JumpWithOffsetSetsPc := fun nnn s =>
  ⟨decodeWord_encodeWord (i := .jpV0 nnn) rfl, jumpTo (addrWord nnn + byteWord (s.getV 0)) s, rfl,
    addrWord_add_byteWord_toNat nnn _, addrWord_add_byteWord_le nnn _, rfl, unchanged_jumpTo s _, advance_jumpTo_pc _ s⟩

/-! ### CALL nnn and RET (R100, R102, R108) -/

theorem exec_call_of_room {nnn : Addr12} {s : State} (h : s.stackDepth ≠ some s.stack.length) :
    exec (.call nnn) s = .next (jumpTo (addrWord nnn) (s.setStack (s.stack ++ [s.pc]))) := by
  rw [exec, execCall, push_of_room h, andThen_next]

theorem exec_call_of_full {nnn : Addr12} {s : State} (h : s.stackDepth = some s.stack.length) :
    exec (.call nnn) s = .fault (.stackOverflow s.pc) := by
  rw [exec, execCall, push_of_full h, andThen_fault]

theorem exec_ret_of_newest {s : State} {l : List Word} {e : Word} (h : s.stack = l ++ [e]) :
    exec .ret s = .next ((s.setStack l).setPc e) := popPc_of_newest h

theorem exec_ret_of_empty {s : State} (h : s.stack = []) : exec .ret s = .fault (.stackUnderflow s.pc) :=
  popPc_of_empty h

/-- After a fault the host finds the state as it was (R203). -/
theorem stateAfter_of_fault {s : State} {o : Result} {f : Fault} (h : o = .fault f) : stateAfter s o = s := by
  rw [h, stateAfter]

/-- Settles O14: with room the CALL pushes and then jumps; on a full stack its push faults. -/
theorem callPushesItsOwnAddress : Obligations.CallPushesItsOwnAddress := by
  refine fun nnn s => ⟨decodeWord_encodeWord (i := .call nnn) rfl, fun hroom => ?_, fun hfull => ?_⟩
  · have hexec := exec_call_of_room (nnn := nnn) hroom
    exact ⟨_, hexec, rfl, addrWord_toNat nnn, rfl, exec_frame s _ _ hexec, advance_jumpTo_pc _ _⟩
  · have hexec := exec_call_of_full (nnn := nnn) hfull
    exact ⟨hexec, stateAfter_of_fault hexec⟩

/-- Settles O16: the pop writes `pc` and the stack and leaves `inc_pc` alone, so the Advance adds 2 to the popped entry; with
no entry the pop faults. -/
theorem returnPopsTheNewestEntry : Obligations.ReturnPopsTheNewestEntry := by
  refine ⟨decodeWord_encodeWord (i := .ret) rfl, fun s => ⟨fun l e hstack => ?_, fun hempty => ?_⟩⟩
  · have hexec := exec_ret_of_newest hstack
    exact ⟨_, hexec, rfl, rfl, exec_frame s _ _ hexec, fun hinc => advance_pc_of_incPc hinc⟩
  · have hexec := exec_ret_of_empty hempty
    exact ⟨hexec, stateAfter_of_fault hexec⟩

/-- Settles O18: the newest entry that the RET finds is the address of the CALL, and what lies under it is the stack before. -/
theorem returnComesBackAfterTheCall : Obligations.ReturnComesBackAfterTheCall := fun _ _ hroom =>
  ⟨_, exec_call_of_room hroom, fun _ hstack hinc => ⟨_, exec_ret_of_newest hstack, rfl, advance_pc_of_incPc hinc⟩⟩

/-! ### Skips (R87, R103 to R106) -/

theorem skipIf_pc {P : Prop} [Decidable P] {taken : Bool} (h : taken = true ↔ P) (s : State) :
    (skipIf taken s).pc = if P then s.pc + 2 else s.pc := by
  rw [skipIf_eq, State.setPc_pc]
  exact if_congr h rfl rfl

/-- A skip leaves `inc_pc` alone, so the Advance adds its own 2 (R87). -/
theorem advance_skipIf_pc {P : Prop} [Decidable P] {taken : Bool} (h : taken = true ↔ P) {s : State}
    (hinc : s.incPc = true) : (advance (skipIf taken s)).pc = if P then s.pc + 4 else s.pc + 2 := by
  have hskip : (skipIf taken s).incPc = true := by rw [skipIf_eq, State.setPc_incPc, hinc]
  rw [advance_pc_of_incPc hskip, skipIf_pc h]
  split
  · exact BitVec.add_assoc s.pc 2 2
  · rfl

/-- What Execute of a skip whose test holds exactly under `P` does: it writes `pc` alone, and the Step nets 4 or 2. -/
theorem exec_of_skip {P : Prop} [Decidable P] {i : Instr} {taken : Bool} {s : State}
    (hexec : exec i s = .next (skipIf taken s)) (h : taken = true ↔ P) :
    ∃ t, exec i s = .next t ∧ t.pc = (if P then s.pc + 2 else s.pc) ∧ UnchangedBut (fun p => p = .pc) s t ∧
      (s.incPc = true → (advance t).pc = (if P then s.pc + 4 else s.pc + 2)) :=
  ⟨_, hexec, skipIf_pc h s, unchanged_skipIf s taken, advance_skipIf_pc h⟩

/-- Settles O19: both are skips, on equality with the immediate and on its negation. -/
theorem immediateSkips : Obligations.ImmediateSkips := fun x nn _ =>
  ⟨decodeWord_encodeWord (i := .seImm x nn) rfl, decodeWord_encodeWord (i := .sneImm x nn) rfl,
    exec_of_skip rfl beq_iff_eq, exec_of_skip rfl bne_iff_ne⟩

/-- Families 5 and 9 have an instruction for the last nibble 0 alone (R63, D11). -/
theorem unknownWord_wordRegReg {f k : Nibble} (hf : f = 0x5 ∨ f = 0x9) (hk : k ≠ 0x0) (x y : Reg) :
    unknownWord (wordRegReg f x y k) := by
  have hfam : fieldFam (wordRegReg f x y k) = f := fieldFam_wordRegReg f x y k
  have hlast : fieldN (wordRegReg f x y k) ≠ 0x0 := by rwa [fieldN_wordRegReg]
  rcases hf with hf | hf
  · exact .inr (.inl ⟨hfam.trans hf, hlast⟩)
  · exact .inr (.inr (.inr (.inl ⟨hfam.trans hf, hlast⟩)))

/-- Settles O20: both are skips, on equality of the two registers and on its negation; another last nibble is in the table of
R67. -/
theorem registerSkips : Obligations.RegisterSkips := fun x y _ =>
  ⟨decodeWord_encodeWord (i := .seReg x y) rfl, decodeWord_encodeWord (i := .sneReg x y) rfl,
    fun _ hk => ⟨decodeWord_of_unknownWord (unknownWord_wordRegReg (.inl rfl) hk x y),
      decodeWord_of_unknownWord (unknownWord_wordRegReg (.inr rfl) hk x y)⟩,
    exec_of_skip rfl beq_iff_eq, exec_of_skip rfl bne_iff_ne⟩

end Sys2Proof

/-! # Register load, arithmetic, logic, shift and random (42_alu) -/

namespace Sys2Proof

open Machine

/-! ### Instructions that write one register (R120 to R125) -/

theorem exec_of_setV {i : Instr} {s : State} {x : Reg} {b : Byte} (hexec : exec i s = .next (s.setV x b)) :
    ∃ t, exec i s = .next t ∧ t.getV x = b ∧ UnchangedBut (fun p => p = .reg x) s t :=
  ⟨_, hexec, State.getV_setV_same s x b, unchanged_setV s x b⟩

/-- The same, for a value known bit for bit. -/
theorem exec_of_setV_bits {i : Instr} {s : State} {x : Reg} {b : Byte} {bit : Nat → Bool}
    (hexec : exec i s = .next (s.setV x b)) (hbit : ∀ k, b.getLsbD k = bit k) :
    ∃ t, exec i s = .next t ∧ UnchangedBut (fun p => p = .reg x) s t ∧ ∀ k, k < 8 → (t.getV x).getLsbD k = bit k := by
  obtain ⟨t, ht, hx, hframe⟩ := exec_of_setV hexec
  exact ⟨t, ht, hframe, fun k _ => hx ▸ hbit k⟩

/-- Settles O21: the one write is `nn` to Vx. -/
theorem loadImmediateWritesVx : Obligations.LoadImmediateWritesVx := fun x nn _ =>
  ⟨decodeWord_encodeWord (i := .ldImm x nn) rfl, exec_of_setV rfl⟩

/-- Settles O22: the one write is the sum of two bytes, which wraps. -/
theorem addImmediateWrapsWithoutFlag : Obligations.AddImmediateWrapsWithoutFlag := by
  refine fun x nn s => ⟨decodeWord_encodeWord (i := .addImm x nn) rfl, ?_⟩
  obtain ⟨t, ht, hx, hframe⟩ := exec_of_setV (i := .addImm x nn) (s := s) rfl
  exact ⟨t, ht, by rw [hx, BitVec.toNat_add], hframe⟩

/-- Settles O23: each writes Vx alone, and the bits of what it writes are those of the operands, combined. -/
theorem assignAndLogicWriteVxAlone : Obligations.AssignAndLogicWriteVxAlone := fun x y _ =>
  ⟨decodeWord_encodeWord (i := .ldReg x y) rfl, decodeWord_encodeWord (i := .orReg x y) rfl,
    decodeWord_encodeWord (i := .andReg x y) rfl, decodeWord_encodeWord (i := .xorReg x y) rfl,
    exec_of_setV rfl, exec_of_setV_bits rfl fun _ => BitVec.getLsbD_or, exec_of_setV_bits rfl fun _ => BitVec.getLsbD_and,
    exec_of_setV_bits rfl fun _ => BitVec.getLsbD_xor⟩

/-! ### The flags (R18, R131) -/

theorem flagByte_decide (P : Prop) [Decidable P] : flagByte (decide P) = if P then 0x01 else 0x00 :=
  if_congr decide_eq_true_iff rfl rfl

theorem carryOf_eq_ite (a b : Byte) : carryOf a b = if a.toNat + b.toNat > 255 then 0x01 else 0x00 :=
  flagByte_decide _

theorem noBorrowOf_eq_ite (a b : Byte) : noBorrowOf a b = if a.toNat ≥ b.toNat then 0x01 else 0x00 :=
  flagByte_decide _

theorem lowBitOf_toNat (a : Byte) : (lowBitOf a).toNat = a.toNat % 2 :=
  (BitVec.toNat_and a 0x01).trans (Nat.and_one_is_mod _)

theorem highBitOf_toNat (a : Byte) : (highBitOf a).toNat = a.toNat / 128 :=
  (BitVec.toNat_ushiftRight a 7).trans (Nat.shiftRight_eq_div_pow _ 7)

/-! ### The results, modulo 256 (R131) -/

theorem sub_toNat_eq (a b : Byte) : (a - b).toNat = (256 + a.toNat - b.toNat) % 256 := by
  have hb : b.toNat < 256 := b.isLt
  rw [BitVec.toNat_sub]
  omega

theorem ushiftRight_one_toNat (a : Byte) : (a >>> 1).toNat = a.toNat / 2 :=
  (BitVec.toNat_ushiftRight a 1).trans (Nat.shiftRight_eq_div_pow _ 1)

theorem shiftLeft_one_toNat (a : Byte) : (a <<< 1).toNat = (2 * a.toNat) % 256 := by
  rw [BitVec.toNat_shiftLeft, Nat.shiftLeft_eq, Nat.mul_comm]

/-! ### Instructions that write a result and then VF (R85, R126 to R130) -/

@[simp] theorem setResultFlag_getV_vf (s : State) (x : Reg) (result flag : Byte) :
    (setResultFlag s x result flag).getV vf = flag := by
  rw [setResultFlag_getV, if_pos rfl]

theorem setResultFlag_getV_of_ne {x : Reg} (hx : x ≠ vf) (s : State) (result flag : Byte) :
    (setResultFlag s x result flag).getV x = result := by
  rw [setResultFlag_getV, if_neg hx, if_pos rfl]

/-- VF ends as the flag, whatever `x` is; Vx ends as the result unless it is VF (R132). `P` and `Q` are what is known of the
flag and of the result. -/
theorem exec_of_setResultFlag {i : Instr} {s : State} {x : Reg} {result flag : Byte} (P Q : Byte → Prop)
    (hexec : exec i s = .next (setResultFlag s x result flag)) (hflag : P flag) (hresult : Q result) :
    ∃ t, exec i s = .next t ∧ P (t.getV vf) ∧ (x ≠ vf → Q (t.getV x)) ∧
      UnchangedBut (fun p => p = .reg x ∨ p = .reg vf) s t :=
  ⟨_, hexec, (setResultFlag_getV_vf s x result flag).symm ▸ hflag,
    fun hx => (setResultFlag_getV_of_ne hx s result flag).symm ▸ hresult, unchanged_setResultFlag s x result flag⟩

/-- Settles O24: the flag is the carry of the two old values, and the sum wraps. -/
theorem addSetsCarryLast : Obligations.AddSetsCarryLast := fun x y _ =>
  ⟨decodeWord_encodeWord (i := .addReg x y) rfl,
    exec_of_setResultFlag (· = _) (·.toNat = _) rfl (carryOf_eq_ite _ _) (BitVec.toNat_add _ _)⟩

/-- What Execute of a subtraction `a - b` does, whichever registers the operands come from. -/
theorem exec_of_subtraction {i : Instr} {s : State} {x : Reg} {a b : Byte}
    (hexec : exec i s = .next (setResultFlag s x (a - b) (noBorrowOf a b))) :
    ∃ t, exec i s = .next t ∧ t.getV vf = (if a.toNat ≥ b.toNat then 0x01 else 0x00) ∧
      (x ≠ vf → (t.getV x).toNat = (256 + a.toNat - b.toNat) % 256) ∧
      UnchangedBut (fun p => p = .reg x ∨ p = .reg vf) s t :=
  exec_of_setResultFlag (· = _) (·.toNat = _) hexec (noBorrowOf_eq_ite a b) (sub_toNat_eq a b)

/-- Settles O25: both are subtractions, with the operands in one order and in the other. -/
theorem subtractSetsNotBorrowLast : Obligations.SubtractSetsNotBorrowLast := fun x y _ =>
  ⟨decodeWord_encodeWord (i := .subReg x y) rfl, decodeWord_encodeWord (i := .subnReg x y) rfl,
    exec_of_subtraction rfl, exec_of_subtraction rfl⟩

/-- Settles O26: the flag is the bit of the old Vx that the shift drops, and the result is the old Vx halved or doubled. -/
theorem shiftsMoveTheLostBitToVf : Obligations.ShiftsMoveTheLostBitToVf := fun x y _ =>
  ⟨decodeWord_encodeWord (i := .shr x y) rfl, decodeWord_encodeWord (i := .shl x y) rfl,
    exec_of_setResultFlag (·.toNat = _) (·.toNat = _) rfl (lowBitOf_toNat _) (ushiftRight_one_toNat _),
    exec_of_setResultFlag (·.toNat = _) (·.toNat = _) rfl (highBitOf_toNat _) (shiftLeft_one_toNat _)⟩

/-! ### RND (R134) -/

/-- A bit that is clear in the mask is clear in the masked byte. -/
theorem getLsbD_and_eq_false {mask : Byte} {k : Nat} (h : mask.getLsbD k = false) (a : Byte) :
    (a &&& mask).getLsbD k = false := by
  rw [BitVec.getLsbD_and, h, Bool.and_false]

theorem and_toNat_le_mask (a mask : Byte) : (a &&& mask).toNat ≤ mask.toNat :=
  (BitVec.toNat_and a mask).trans_le Nat.and_le_right

theorem exec_rnd (x : Reg) (nn : Byte) (s : State) :
    ∃ t, exec (.rnd x nn) s = .next t ∧ t.getV x = Config.randomByte s.draws &&& nn ∧ t.draws = s.draws + 1 ∧
      UnchangedBut (fun p => p = .reg x ∨ p = .draws) s t :=
  ⟨_, rfl, State.getV_setV_same s x _, rfl, exec_frame s (.rnd x nn) _ rfl⟩

/-- Settles O27: whatever the draw is, Vx ends as the draw masked, and the masked byte is bounded by the mask. -/
theorem randomIsAMaskedFreshDraw : Obligations.RandomIsAMaskedFreshDraw := by
  refine fun x nn s => ⟨decodeWord_encodeWord (i := .rnd x nn) rfl, ?_⟩
  obtain ⟨t, ht, hx, hdraws, hframe⟩ := exec_rnd x nn s
  refine ⟨t, ht, hx, hdraws, fun b hb => ?_, ?_, hframe⟩
  · rw [hx]
    exact getLsbD_and_eq_false hb _
  · rw [hx]
    exact and_toNat_le_mask _ nn

end Sys2Proof

/-! # Index register and memory (43_index_memory) -/

namespace Sys2Proof

open Machine

/-! ### The values written to `I` (R140 to R142) -/

/-- Five times a byte fits 16 bits, so the glyph address is the product itself (R142, D15). -/
theorem digitAddr_toNat (b : Byte) : (digitAddr b).toNat = 5 * b.toNat := by
  have hfits : 5 * b.toNat < 2 ^ 16 := by have := b.isLt; omega
  rw [digitAddr, BitVec.toNat_mul, byteWord_toNat]
  exact Nat.mod_eq_of_lt hfits

/-- A number that fits the width is kept by the conversion to it. -/
theorem toNat_ofNat_of_lt {w n : Nat} (h : n < 2 ^ w) : (BitVec.ofNat w n).toNat = n :=
  (BitVec.toNat_ofNat n w).trans (Nat.mod_eq_of_lt h)

/-- Settles O28: each is one write to `I`, of a value that 16 bits hold. -/
theorem indexLoads : Obligations.IndexLoads := fun nnn x s =>
  ⟨decodeWord_encodeWord (i := .ldI nnn) rfl, decodeWord_encodeWord (i := .ldF x) rfl,
    ⟨_, rfl, addrWord_toNat nnn, unchanged_setIndex s _⟩, ⟨_, rfl, digitAddr_toNat _, unchanged_setIndex s _⟩⟩

/-- Settles O29: a sum up to 0x1000 fits 16 bits and is the one write; a greater one clears `I`, and VF is written after it. -/
theorem indexAddOverflowsAbove0x1000 : Obligations.IndexAddOverflowsAbove0x1000 := by
  refine fun x s => ⟨decodeWord_encodeWord (i := .addI x) rfl, fun hle => ?_, fun hgt => ?_⟩
  · have hfits : s.index.toNat + (s.getV x).toNat < 2 ^ 16 := hle.trans_lt (by decide)
    exact ⟨_, execAddI_of_le hle, toNat_ofNat_of_lt hfits, unchanged_setIndex s _⟩
  · have hexec : exec (.addI x) s = _ := execAddI_of_gt hgt
    exact ⟨_, hexec, rfl, State.getV_setV_same _ vf _, exec_frame s _ _ hexec⟩

/-! ### The range check of the data instructions (R146) -/

/-- An instruction that begins with the range check of the `n + 1` cells from `I` on faults when the last of them does not
exist, and the host finds the state as it was (R146, R203, D7). -/
theorem exec_of_rangeFault {i : Instr} {s : State} {n : Nat} {k : Result}
    (hexec : exec i s = checkRange (dataAddr s 0) (n + 1) (.memOutOfRange s.index s.pc) k)
    (h : 0x0FFF < s.index.toNat + n) :
    exec i s = .fault (.memOutOfRange s.index s.pc) ∧ stateAfter s (exec i s) = s := by
  have hfault := hexec.trans (checkRange_of_gt n.succ_pos h)
  exact ⟨hfault, stateAfter_of_fault hfault⟩

/-! ### LD B, Vx (R143) -/

theorem hundredsOf_toNat (a : Byte) : (hundredsOf a).toNat = a.toNat / 100 :=
  toNat_ofNat_of_lt ((Nat.div_le_self _ _).trans_lt a.isLt)

theorem tensOf_toNat (a : Byte) : (tensOf a).toNat = a.toNat / 10 % 10 :=
  toNat_ofNat_of_lt ((Nat.mod_lt _ (by decide)).trans (by decide))

theorem onesOf_toNat (a : Byte) : (onesOf a).toNat = a.toNat % 10 :=
  toNat_ofNat_of_lt ((Nat.mod_lt _ (by decide)).trans (by decide))

/-- Three digits that end within memory are stored (R143, R146). -/
theorem exec_ldB_of_le {x : Reg} {s : State} (h : s.index.toNat + 2 ≤ 0x0FFF) :
    exec (.ldB x) s =
      .next (s.storeBytes (dataAddr s 0) [hundredsOf (s.getV x), tensOf (s.getV x), onesOf (s.getV x)]) :=
  checkRange_of_le (Nat.succ_le_succ h)

/-- Settles O30: the three digits are stored from `I` on and read back, each in its own cell. -/
theorem bcdStoresThreeDigits : Obligations.BcdStoresThreeDigits := by
  refine fun x s => ⟨decodeWord_encodeWord (i := .ldB x) rfl, fun hle => ?_, fun hgt => exec_of_rangeFault rfl hgt⟩
  refine ⟨_, exec_ldB_of_le hle, storeBytes_frame s [_, _, _], fun hs => ?_⟩
  have hread (k : Nat) (hk : k < 3) := State.storeBytes_byteAt_inside hs (a := dataAddr s 0)
    (bs := [hundredsOf (s.getV x), tensOf (s.getV x), onesOf (s.getV x)]) (Nat.succ_le_succ hle) k hk
  exact ⟨(congrArg BitVec.toNat (hread 0 (by decide))).trans (hundredsOf_toNat _),
    (congrArg BitVec.toNat (hread 1 (by decide))).trans (tensOf_toNat _),
    (congrArg BitVec.toNat (hread 2 (by decide))).trans (onesOf_toNat _)⟩

/-! ### LD [I], Vx and LD Vx, [I] (R144, R145) -/

/-- Settles O31: the block is stored from `I` on, and its cell `k` reads back as `V[k]`. -/
theorem storeRegistersWritesTheBlock : Obligations.StoreRegistersWritesTheBlock := by
  refine fun x s => ⟨decodeWord_encodeWord (i := .storeRegs x) rfl, fun hle => ?_, fun hgt => exec_of_rangeFault rfl hgt⟩
  have hexec : exec (.storeRegs x) s = _ := execStoreRegs_of_le hle
  exact ⟨_, hexec, exec_frame s _ _ hexec, fun hs => storeBytes_blockOf_byteAt hs hle⟩

/-- A block that lies within memory is loaded (R145, R146). -/
theorem exec_loadRegs_of_le {x : Reg} {s : State} (h : s.index.toNat + x.val ≤ 0x0FFF) :
    exec (.loadRegs x) s = .next (s.setRegs (blockFrom s x)) :=
  checkRange_of_le (Nat.succ_le_succ h)

/-- Settles O32: the registers up to Vx come from the block, and the block load leaves the others. -/
theorem loadRegistersReadsTheBlock : Obligations.LoadRegistersReadsTheBlock := by
  refine fun x s => ⟨decodeWord_encodeWord (i := .loadRegs x) rfl, fun hle => ?_, fun hgt => exec_of_rangeFault rfl hgt⟩
  exact ⟨_, exec_loadRegs_of_le hle, fun k hk => (blockFrom_getElem s x k).trans (if_pos hk), unchanged_blockFrom s x⟩

end Sys2Proof

/-! # Display (44_display) -/

namespace Sys2Proof

open Machine

/-! ### CLS (R160) -/

/-- Settles O35: the one write is the cleared display. -/
theorem clearTurnsEveryPixelOff : Obligations.ClearTurnsEveryPixelOff :=
  ⟨decodeWord_encodeWord (i := .cls) rfl, fun s => ⟨_, rfl, Display.pixel_clear, unchanged_setDisp s _⟩⟩

/-! ### What DRW leaves (R161, R164) -/

/-- The display and the collision after DRW Vx, Vy, n has drawn its rows from `s` (R161). -/
def drawn (s : State) (x y : Reg) (n : Nat) : Display × Bool :=
  drawSprite (spriteRow s) ((s.getV x).toNat % 64) ((s.getV y).toNat % 32) n (s.disp, false)

/-- A draw of no rows, or of rows that all exist, passes the range check (R163, R164). -/
theorem exec_drw_of_inRange {n : Nat} {s : State} (h : n = 0 ∨ s.index.toNat + n - 1 ≤ 0x0FFF) (x y : Reg) :
    exec (.drw x y n) s = .next ((s.setDisp (drawn s x y n).1).setV vf (flagByte (drawn s x y n).2)) := by
  rcases h with rfl | h
  · exact checkRange_zero (dataAddr s 0) (.memOutOfRange s.index s.pc) _
  · exact checkRange_of_le (Nat.sub_le_iff_le_add.mp h)

theorem flagByte_eq_zero_or_one (b : Bool) : flagByte b = 0x00 ∨ flagByte b = 0x01 := by
  cases b
  · exact .inl rfl
  · exact .inr rfl

/-- Settles O36: in range DRW writes the display and then a flag byte to VF. -/
theorem drawWritesPixelsAndVf : Obligations.DrawWritesPixelsAndVf := by
  refine fun x y n s hn => ⟨decodeWord_encodeWord (i := .drw x y n) (decide_eq_true hn), fun hrange => ?_⟩
  have hexec := exec_drw_of_inRange hrange x y
  refine ⟨_, hexec, ?_, exec_frame s _ _ hexec⟩
  rw [State.getV_setV_same]
  exact flagByte_eq_zero_or_one _

/-- No rows leave the display as it is and meet no pixel (R163, D17). -/
theorem exec_drw_zero (x y : Reg) (s : State) : exec (.drw x y 0) s = .next (s.setV vf 0x00) :=
  exec_drw_of_inRange (.inl rfl) x y

/-- Settles O39: with no rows the write of VF is the one write. -/
theorem drawOfNoRowsOnlyResetsVf : Obligations.DrawOfNoRowsOnlyResetsVf := fun x y s =>
  ⟨decodeWord_encodeWord (i := .drw x y 0) rfl, _, exec_drw_zero x y s, State.getV_setV_same s vf _, unchanged_setV s vf _⟩

/-! ### The pixel law (R162) -/

/-- The pixels under the sprite that DRW draws are the set S of R162. -/
theorem spriteHas_iff_spriteCovers (s : State) (x y : Reg) (n : Nat) (r : Fin 32) (c : Fin 64) :
    spriteHas (spriteRow s) ((s.getV x).toNat % 64) ((s.getV y).toNat % 32) n r c ↔ spriteCovers s x y n r c := by
  simp only [spriteHas, spriteCovers, Fin.ext_iff, pixelRow, pixelCol, spriteBit, spriteRow, dataAddr]

/-- `d'` is `d` with exactly the pixels of `S` flipped. -/
def FlipsExactly (S : Fin 32 → Fin 64 → Prop) (d d' : Display) : Prop :=
  (∀ r c, S r c → Display.pixel d' r c = !Display.pixel d r c) ∧
  (∀ r c, ¬ S r c → Display.pixel d' r c = Display.pixel d r c)

/-- At most 32 rows, so no two of them meet on one display row, and each set bit flips a pixel of its own. -/
theorem drawn_flipsExactly {n : Nat} (hn : n ≤ 32) (s : State) (x y : Reg) :
    FlipsExactly (spriteCovers s x y n) s.disp (drawn s x y n).1 := by
  have hpixel (r c) :=
    drawSprite_pixel (spriteRow s) ((s.getV x).toNat % 64) ((s.getV y).toNat % 32) r c (s.disp, false) n hn
  simp only [spriteHas_iff_spriteCovers] at hpixel
  exact ⟨fun r c => (hpixel r c).1, fun r c => (hpixel r c).2⟩

theorem drawn_collision_iff {n : Nat} (hn : n ≤ 32) (s : State) (x y : Reg) :
    (drawn s x y n).2 = true ↔ ∃ r c, spriteCovers s x y n r c ∧ Display.pixel s.disp r c = true := by
  have hhit := drawSprite_hit (spriteRow s) ((s.getV x).toNat % 64) ((s.getV y).toNat % 32) (s.disp, false) n hn
  simpa only [drawn, spriteHas_iff_spriteCovers, Bool.false_eq_true, false_or] using hhit

/-- DRW in range meets the pixel law, and VF tells whether the sprite met a pixel that was on (R162). -/
theorem exec_drw_pixelLaw {n : Nat} {s : State} (hn : n ≤ 15) (hrange : n = 0 ∨ s.index.toNat + n - 1 ≤ 0x0FFF)
    (x y : Reg) :
    ∃ t, exec (.drw x y n) s = .next t ∧ FlipsExactly (spriteCovers s x y n) s.disp t.disp ∧
      ∃ collision, t.getV vf = flagByte collision ∧
        (collision = true ↔ ∃ r c, spriteCovers s x y n r c ∧ Display.pixel s.disp r c = true) :=
  have hn32 : n ≤ 32 := hn.trans (by decide)
  ⟨_, exec_drw_of_inRange hrange x y, drawn_flipsExactly hn32 s x y,
    _, State.getV_setV_same _ vf _, drawn_collision_iff hn32 s x y⟩

/-- Settles O37: the loop meets the pixel law, and its collision is the flag. -/
theorem drawFlipsExactlyTheCoveredPixels : Obligations.DrawFlipsExactlyTheCoveredPixels := by
  intro x y n s hn hrange
  obtain ⟨t, hexec, ⟨hflip, hkeep⟩, collision, hvf, hcollision⟩ := exec_drw_pixelLaw hn hrange x y
  refine ⟨t, hexec, hflip, hkeep, fun hmet => ?_, fun hmet => ?_⟩
  · rw [hvf, hcollision.mpr hmet, flagByte_true]
  · rw [hvf, Bool.eq_false_iff.mpr (mt hcollision.mp hmet), flagByte_false]

/-! ### Drawing twice (R162, C6) -/

/-- The set S depends on the sprite's bytes, on `I` and on the position alone. -/
theorem spriteCovers_congr {s u : State} {x y : Reg} (hmem : ∀ a, u.byteAt a = s.byteAt a) (hindex : u.index = s.index)
    (hx : u.getV x = s.getV x) (hy : u.getV y = s.getV y) (n : Nat) : spriteCovers u x y n = spriteCovers s x y n := by
  funext r c
  rw [spriteCovers, spriteCovers, hindex, hx, hy]
  simp only [hmem]

theorem FlipsExactly.twice {S : Fin 32 → Fin 64 → Prop} {d d' d'' : Display} (h : FlipsExactly S d d')
    (h' : FlipsExactly S d' d'') (r : Fin 32) (c : Fin 64) : Display.pixel d'' r c = Display.pixel d r c := by
  by_cases hS : S r c
  · rw [h'.1 r c hS, h.1 r c hS, Bool.not_not]
  · rw [h'.2 r c hS, h.2 r c hS]

/-- A pixel that is on after the flips lies in `S` exactly if they turned it on. -/
theorem FlipsExactly.mem_and_on_iff {S : Fin 32 → Fin 64 → Prop} {d d' : Display} (h : FlipsExactly S d d')
    (r : Fin 32) (c : Fin 64) :
    S r c ∧ Display.pixel d' r c = true ↔ Display.pixel d r c = false ∧ Display.pixel d' r c = true := by
  refine and_congr_left fun hon => ?_
  by_cases hS : S r c
  · have hoff : Display.pixel d r c = false := by rwa [h.1 r c hS, Bool.not_eq_true'] at hon
    exact iff_of_true hS hoff
  · have hstill : Display.pixel d r c = true := (h.2 r c hS).symm.trans hon
    exact iff_of_false hS (ne_false_of_eq_true hstill)

theorem flagByte_eq_one_iff (b : Bool) : flagByte b = 0x01 ↔ b = true := by
  cases b <;> decide

/-- Settles O38: both draws flip the same set, so the second undoes the first, and it collides where the first turned a pixel
of the set on. -/
theorem drawingTwiceRestoresTheDisplay : Obligations.DrawingTwiceRestoresTheDisplay := by
  intro x y n s hn hrange
  obtain ⟨t, hexec, hfirst, -⟩ := exec_drw_pixelLaw hn hrange x y
  refine ⟨t, hexec, fun u hdisp hmem hindex hx hy => ?_⟩
  obtain ⟨w, hexec', hsecond, collision, hvf, hcollision⟩ := exec_drw_pixelLaw hn (hindex ▸ hrange) x y
  rw [spriteCovers_congr hmem hindex hx hy, hdisp] at hsecond hcollision
  refine ⟨w, hexec', hfirst.twice hsecond, ?_⟩
  simp only [hvf, flagByte_eq_one_iff, hcollision, hfirst.mem_and_on_iff]

end Sys2Proof

/-! # Keypad and timers (45_keypad_timers) -/

namespace Sys2Proof

open Machine

/-! ### The key test (R170, R171, R176) -/

/-- A key code as a register holds it is the code itself (R172). -/
theorem key_setWidth_toNat (k : Key) : (k.setWidth 8).toNat = k.toNat :=
  BitVec.toNat_setWidth_of_le (by decide)

/-- The test holds exactly for a pressed key whose code is the whole byte Vx (R176, D10). -/
theorem keyIs_iff {s : State} {x : Reg} :
    keyIs s x = true ↔ ∃ k : Key, s.key = some k ∧ k.toNat = (s.getV x).toNat := by
  unfold keyIs
  cases s.key with
  | none => simp
  | some k =>
    simp only [beq_iff_eq, ← BitVec.toNat_inj (x := k.setWidth 8), key_setWidth_toNat, Option.some.injEq, exists_eq_left']

/-- Settles O40: both are skips, on the key test and on its negation, so one of them nets 4 and the other 2. -/
theorem keySkips : Obligations.KeySkips := by
  intro x s
  obtain ⟨t, ht, htpc, htframe, htnet⟩ := exec_of_skip (i := .skp x) (s := s) rfl (Iff.refl (keyIs s x = true))
  obtain ⟨u, hu, hupc, huframe, hunet⟩ := exec_of_skip (i := .sknp x) (s := s) rfl (Bool.not_eq_true' (keyIs s x)).to_iff
  refine ⟨decodeWord_encodeWord (i := .skp x) rfl, decodeWord_encodeWord (i := .sknp x) rfl, t, u, ht, hu, htframe,
    huframe, ?_⟩
  rw [← keyIs_iff]
  cases hkey : keyIs s x with
  | true =>
    simp only [hkey, if_true, Bool.true_eq_false, if_false] at htpc hupc htnet hunet
    exact ⟨fun _ => ⟨htpc, hupc⟩, fun hnot => absurd rfl hnot, fun hinc => .inl ⟨htnet hinc, hunet hinc⟩⟩
  | false =>
    simp only [hkey, if_true, Bool.false_eq_true, if_false] at htpc hupc htnet hunet
    exact ⟨nofun, fun _ => ⟨htpc, hupc⟩, fun hinc => .inr ⟨htnet hinc, hunet hinc⟩⟩

/-! ### LD Vx, K (R172) -/

/-- Settles O41: with no key the one write is to `inc_pc`, with a key it is the code to Vx. -/
theorem keyWaitOrStore : Obligations.KeyWaitOrStore := by
  refine fun x s => ⟨decodeWord_encodeWord (i := .ldVxK x) rfl, fun hnone => ?_, fun k hsome => ?_⟩
  · exact ⟨_, execLdVxK_of_none hnone, rfl, unchanged_setIncPc s false, rfl⟩
  · obtain ⟨t, ht, hx, hframe⟩ := exec_of_setV (i := .ldVxK x) (execLdVxK_of_some hsome)
    exact ⟨t, ht, by rw [hx, key_setWidth_toNat], hframe⟩

/-- A suppressed Advance only sets `inc_pc` again (R83). -/
theorem advance_setIncPc_false {s : State} (h : s.incPc = true) : advance (s.setIncPc false) = s :=
  setIncPc_eq_self h

/-- A Step of a word that decodes reports what Execute of its instruction does (R89). -/
theorem stepReport_of_ok {s : State} {op : Word} {i : Instr} (hfetch : fetch s = .ok op)
    (hdecode : decodeWord op = .ok i) : stepReport s = execReport i s := by
  simp only [stepReport, hfetch, hdecode]

theorem execReport_ldVxK_of_none {s : State} (h : s.key = none) (x : Reg) : execReport (.ldVxK x) s = .keyWait := by
  simp only [execReport, h]

/-- Settles O42: Execute suppresses the Advance, which then only undoes that. -/
theorem blockedKeyWaitStepChangesNothing : Obligations.BlockedKeyWaitStepChangesNothing := by
  intro x s hfetch hkey hinc
  have hdecode : decodeWord (wordRegByte 0xF x 0x0A) = .ok (.ldVxK x) := decodeWord_encodeWord (i := .ldVxK x) rfl
  have hexec : execute (wordRegByte 0xF x 0x0A) s = .next (s.setIncPc false) :=
    (execute_of_ok hdecode s).trans (execLdVxK_of_none hkey)
  have hstep : step s = .next s := by
    rw [step_of_execute_next hfetch hexec, advance_setIncPc_false hinc]
  refine ⟨hstep, ?_⟩
  rw [statusOf_step_of_next hstep, stepReport_of_ok hfetch hdecode, execReport_ldVxK_of_none hkey]

/-! ### The timers (R173 to R175, R178) -/

/-- Settles O43: each is one write, of the timer to Vx or of Vx to the timer. -/
theorem timerMoves : Obligations.TimerMoves := fun x s =>
  ⟨decodeWord_encodeWord (i := .ldVxDt x) rfl, decodeWord_encodeWord (i := .ldDtVx x) rfl,
    decodeWord_encodeWord (i := .ldStVx x) rfl, exec_of_setV rfl,
    ⟨_, rfl, rfl, unchanged_setDt s _⟩, ⟨_, rfl, rfl, unchanged_setSt s _⟩⟩

/-- The floor of 0 is that of the natural subtraction (R19). -/
theorem countDown_toNat (b : Byte) : (countDown b).toNat = b.toNat - 1 := by
  unfold countDown
  split
  · next hpos => exact BitVec.toNat_sub_of_le hpos
  · next hzero => omega

/-- Settles O44: the two writes are the timers counted down, and a Tick has no report. -/
theorem tickCountsBothTimersDown : Obligations.TickCountsBothTimersDown := fun s =>
  ⟨_, rfl, countDown_toNat s.dt, countDown_toNat s.st,
    ((unchanged_setDt s _).mono fun _ => .inl).trans ((unchanged_setSt _ _).mono fun _ => .inr), rfl⟩

/-! ### SetKey (R177) -/

/-- A second write of the key hides the first. -/
@[simp] theorem setKey_setKey (s : State) (k k' : Option Key) : (s.setKey k).setKey k' = s.setKey k' := rfl

/-- Settles O45: SetKey is one write of the key, which a second one overwrites. -/
theorem lastKeySetWins : Obligations.LastKeySetWins := fun k k' s =>
  ⟨s.setKey k, rfl, rfl, unchanged_setKey s k, setKey_setKey s k k'⟩

end Sys2Proof

/-! # Exceptions and statuses (60_exceptions) -/

namespace Sys2Proof

open Machine

/-! ### What Execute answers, by the table of faults (R201, R204 to R206) -/

/-- The answer is the tabled fault, or a next state where none is tabled. -/
def AnswersAs : Option Fault → Result → Prop
  | none, o => ∃ t, o = .next t
  | some f, o => o = .fault f

theorem AnswersAs.next (t : State) : AnswersAs none (.next t) := ⟨t, rfl⟩

/-- An answer faults exactly with its tabled fault. -/
theorem AnswersAs.eq_fault_iff {c : Option Fault} {o : Result} (h : AnswersAs c o) {f : Fault} :
    o = .fault f ↔ c = some f := by
  cases c with
  | none => obtain ⟨t, rfl⟩ := h; exact iff_of_false nofun nofun
  | some g => cases h; rw [Host.Outcome.fault.injEq, Option.some.injEq]

/-- The range check is the guard that the last of its cells exists (R146, R164, D7). -/
theorem checkRange_answersAs {first len : Nat} {f : Fault} {t : State} :
    AnswersAs (if 0 < len ∧ Config.memTop < first + len - 1 then some f else none) (checkRange first len f (.next t)) := by
  unfold checkRange
  split
  · exact rfl
  · exact .next t

/-- The same, for a block that is never empty. -/
theorem checkRange_succ_answersAs {first n : Nat} {f : Fault} {t : State} :
    AnswersAs (if Config.memTop < first + n then some f else none) (checkRange first (n + 1) f (.next t)) := by
  simpa using checkRange_answersAs (first := first) (len := n + 1) (f := f) (t := t)

theorem execRet_answersAs (s : State) : AnswersAs (faultOf .ret s) (execRet s) := by
  rcases List.eq_nil_or_concat' s.stack with hs | ⟨l, e, hs⟩
  · rw [faultOf, if_pos hs]
    exact popPc_of_empty hs
  · rw [faultOf, if_neg (by simp [hs])]
    exact ⟨_, popPc_of_newest hs⟩

theorem execCall_answersAs (nnn : Addr12) (s : State) : AnswersAs (faultOf (.call nnn) s) (execCall nnn s) := by
  by_cases h : s.stackDepth = some s.stack.length
  · rw [faultOf, if_pos h]
    exact exec_call_of_full h
  · rw [faultOf, if_neg h]
    exact ⟨_, exec_call_of_room h⟩

theorem execAddI_answersAs (x : Reg) (s : State) : AnswersAs none (execAddI x s) := by
  rcases Nat.lt_or_ge 0x1000 (s.index.toNat + (s.getV x).toNat) with h | h
  · exact ⟨_, execAddI_of_gt h⟩
  · exact ⟨_, execAddI_of_le h⟩

theorem execLdVxK_answersAs (x : Reg) (s : State) : AnswersAs none (execLdVxK x s) := by
  cases hk : s.key with
  | none => exact ⟨_, execLdVxK_of_none hk⟩
  | some k => exact ⟨_, execLdVxK_of_some hk⟩

/-- Execute answers as the table of faults says, instruction by instruction. -/
theorem exec_answersAs (s : State) : ∀ i, AnswersAs (faultOf i s) (exec i s)
  | .ret => execRet_answersAs s
  | .call nnn => execCall_answersAs nnn s
  | .drw _ _ _ => checkRange_answersAs
  | .ldB _ => checkRange_succ_answersAs
  | .storeRegs _ => checkRange_succ_answersAs
  | .loadRegs _ => checkRange_succ_answersAs
  | .addI x => execAddI_answersAs x s
  | .ldVxK x => execLdVxK_answersAs x s
  | .cls | .jp _ | .jpV0 _ | .ldI _ | .ldF _ | .ldVxDt _ | .ldDtVx _ | .ldStVx _ => .next _
  | .seImm _ _ | .sneImm _ _ | .seReg _ _ | .sneReg _ _ | .skp _ | .sknp _ => .next _
  | .ldImm _ _ | .addImm _ _ | .ldReg _ _ | .orReg _ _ | .andReg _ _ | .xorReg _ _ => .next _
  | .addReg _ _ | .subReg _ _ | .shr _ _ | .subnReg _ _ | .shl _ _ | .rnd _ _ => .next _

/-- Settles O53: `exec_answersAs`, read for an instruction with no tabled fault and for one with. -/
theorem executeFaultsExactlyAsTabled : Obligations.ExecuteFaultsExactlyAsTabled := by
  intro i s
  have hanswers := exec_answersAs s i
  exact ⟨fun hnone => by rwa [hnone] at hanswers, fun f hsome => hanswers.eq_fault_iff.mpr hsome⟩

/-- Execute faults exactly with the tabled fault. -/
theorem exec_eq_fault_iff {i : Instr} {s : State} {f : Fault} : exec i s = .fault f ↔ faultOf i s = some f :=
  (exec_answersAs s i).eq_fault_iff

/-! ### Which instructions raise which fault (R205, R206) -/

/-- The table gives StackOverflow to CALL on a full stack alone (R205). -/
theorem faultOf_eq_stackOverflow_iff {i : Instr} {s : State} {pc : Word} :
    faultOf i s = some (.stackOverflow pc) ↔
      ∃ nnn, i = .call nnn ∧ s.stackDepth = some s.stack.length ∧ pc = s.pc := by
  cases i with
  | call nnn => simp [faultOf, eq_comm (a := s.pc)]
  | _ => simp [faultOf]

/-- Settles O15: the table's entry for CALL; an unbounded stack is never full. -/
theorem stackOverflowExactlyWhenFull : Obligations.StackOverflowExactlyWhenFull := by
  intro i s pc
  have hiff := exec_eq_fault_iff.trans (faultOf_eq_stackOverflow_iff (i := i) (s := s) (pc := pc))
  refine ⟨hiff, fun hunbounded hfault => ?_⟩
  obtain ⟨-, -, hfull, -⟩ := hiff.mp hfault
  exact nomatch hunbounded.symm.trans hfull

/-- An entry of the table for a range check, under the check `p` (R206). -/
theorem ite_memOutOfRange_eq_some_iff {p : Prop} [Decidable p] {s : State} {index pc : Word} :
    (if p then some (Fault.memOutOfRange s.index s.pc) else none) = some (.memOutOfRange index pc) ↔
      index = s.index ∧ pc = s.pc ∧ p := by
  rw [Option.ite_none_right_eq_some, Option.some.injEq, Fault.memOutOfRange.injEq, eq_comm (b := index),
    eq_comm (b := pc), and_comm, and_assoc]

/-- Settles O33: the table gives MemOutOfRange to the four instructions with a range check, under that check. -/
theorem memOutOfRangeExactlyWhen : Obligations.MemOutOfRangeExactlyWhen := by
  intro i s index pc
  rw [exec_eq_fault_iff]
  cases i with
  | ldB x => exact ite_memOutOfRange_eq_some_iff.trans (by simp)
  | storeRegs x => exact ite_memOutOfRange_eq_some_iff.trans (by simp)
  | loadRegs x => exact ite_memOutOfRange_eq_some_iff.trans (by simp)
  | drw x y n => exact ite_memOutOfRange_eq_some_iff.trans (by simp)
  | _ => simp [faultOf]

/-! ### A fault ends the operation and changes nothing (R203, R214) -/

/-- Past the last word a Fetch can read, the Step faults (R207, D6). -/
theorem step_of_pc_gt {s : State} (h : 0x0FFE < s.pc.toNat) : step s = .fault (.fetchOutOfRange s.pc) := by
  rw [step, fetch_error h]; rfl

/-- A fault of Execute is the fault of the Step, with no Advance (R80, R203). -/
theorem step_of_exec_fault {s : State} {op : Word} {i : Instr} {f : Fault} (hfetch : fetch s = .ok op)
    (hdecode : decodeWord op = .ok i) (hexec : exec i s = .fault f) : step s = .fault f := by
  rw [step_of_fetch hfetch, execute_of_ok hdecode, hexec, andThen_fault]

theorem after_of_fault {op : Operation} {s : State} {f : Fault} (h : perform op s = .fault f) : after op s = s :=
  stateAfter_of_fault h

/-- A fault is returned as its status (R203). -/
theorem statusOf_of_fault {op : Operation} {s : State} {f : Fault} (h : perform op s = .fault f) :
    statusOf op s = some f.status := by
  rw [statusOf, h]

/-- Settles O51: the state is the same after the fault, so the same operation meets the same check. -/
theorem faultChangesNothing : Obligations.FaultChangesNothing := by
  intro op s f h
  have hafter := after_of_fault h
  exact ⟨hafter, by rwa [hafter], statusOf_of_fault h⟩

/-- Settles O9: Fetch faults, so the Step does. -/
theorem stepPastMemoryFaults : Obligations.StepPastMemoryFaults := by
  intro s hpc
  have hstep : perform .step s = .fault (.fetchOutOfRange s.pc) := step_of_pc_gt hpc
  exact ⟨hstep, after_of_fault hstep, statusOf_of_fault hstep⟩

/-- Settles O17: the pop of RET faults, and finds the same empty stack at the next Step. -/
theorem emptyReturnStepFaultsForEver : Obligations.EmptyReturnStepFaultsForEver := by
  intro s hfetch hempty
  have hstep : perform .step s = .fault (.stackUnderflow s.pc) :=
    step_of_exec_fault hfetch (decodeWord_encodeWord (i := .ret) rfl) (exec_ret_of_empty hempty)
  obtain ⟨hafter, hagain, hstatus⟩ := faultChangesNothing .step s _ hstep
  exact ⟨hstep, hstatus, hafter, hagain⟩

/-! ### The status of every operation (R200, R202, R89) -/

/-- The operation answers: with a next state or with a fault, never with a refusal. -/
def NextOrFault (o : Result) : Prop := (∃ t, o = .next t) ∨ ∃ f, o = .fault f

theorem NextOrFault.next (t : State) : NextOrFault (.next t) := .inl ⟨t, rfl⟩

theorem NextOrFault.fault (f : Fault) : NextOrFault (.fault f) := .inr ⟨f, rfl⟩

theorem AnswersAs.nextOrFault : ∀ {c : Option Fault} {o : Result}, AnswersAs c o → NextOrFault o
  | none, _, h => .inl h
  | some f, _, h => .inr ⟨f, h⟩

theorem NextOrFault.andThen {o : Result} {k : State → Result} (ho : NextOrFault o) (hk : ∀ t, NextOrFault (k t)) :
    NextOrFault (andThen o k) := by
  rcases ho with ⟨t, rfl⟩ | ⟨f, rfl⟩
  · exact hk t
  · exact .fault f

/-- Every word has a meaning, so Execute refuses none (R82, R86). -/
theorem execute_nextOrFault (op : Word) (s : State) : NextOrFault (execute op s) := by
  unfold execute
  split
  · exact (exec_answersAs s _).nextOrFault
  · exact .next s

theorem step_nextOrFault (s : State) : NextOrFault (step s) := by
  unfold step
  split
  · exact .fault _
  · exact (execute_nextOrFault _ s).andThen fun t => .next (advance t)

theorem doLoad_nextOrFault (bytes : List Byte) (s : State) : NextOrFault (doLoad bytes s) := by
  unfold doLoad
  split
  · exact .fault _
  · exact .next _

theorem perform_nextOrFault (s : State) : ∀ op, NextOrFault (perform op s)
  | .load bytes => doLoad_nextOrFault bytes s
  | .step => step_nextOrFault s
  | .reinit | .tick | .pressKey _ | .readDisplay | .readState => .next _

theorem fault_status_cls (f : Fault) : f.status.cls = .fault := by cases f <;> rfl

/-- Execute of an instruction reports KEY_WAIT or nothing (R210, R211). -/
theorem execReport_cls_ne_fault (i : Instr) (s : State) : (execReport i s).cls ≠ .fault := by
  unfold execReport
  split <;> decide

/-- A Step that answers has fetched a word, so what it reports is no fault (R89, R209). -/
theorem stepReport_cls_ne_fault {s t : State} (h : step s = .next t) : (stepReport s).cls ≠ .fault := by
  obtain ⟨op, -, hfetch, -⟩ := step_eq_next h
  cases hdecode : decodeWord op with
  | ok i => rw [stepReport_of_ok hfetch hdecode]; exact execReport_cls_ne_fault i s
  | error e => rw [stepReport_of_error hfetch hdecode]; exact nofun

/-- An operation that answers a next state returns no fault, and only a Step has a report to return (R200). -/
theorem reportOf_cls_of_next {s t : State} : ∀ {op : Operation}, perform op s = .next t →
    (reportOf op s).cls ≠ .fault ∧ ((reportOf op s).cls = .report → op = .step ∧ ∃ t, step s = .next t)
  | .step, h => ⟨stepReport_cls_ne_fault h, fun _ => ⟨rfl, t, h⟩⟩
  | .reinit, _ | .load _, _ | .tick, _ | .pressKey _, _ | .readDisplay, _ | .readState, _ => ⟨nofun, nofun⟩

theorem statusOf_of_next {op : Operation} {s t : State} (h : perform op s = .next t) :
    statusOf op s = some (reportOf op s) := by
  rw [statusOf, h]

/-- Settles O50: an operation that answers returns its report, and one that faults the status of its fault. -/
theorem everyOperationReturnsOneStatus : Obligations.EveryOperationReturnsOneStatus := by
  intro op s
  rcases perform_nextOrFault s op with ⟨t, ht⟩ | ⟨f, hf⟩
  · obtain ⟨hcls, hreport⟩ := reportOf_cls_of_next ht
    have hnoFault : ¬ ∃ f, perform op s = .fault f := by simp [ht]
    exact ⟨_, statusOf_of_next ht, iff_of_false hcls hnoFault, hreport⟩
  · have hcls : f.status.cls = .fault := fault_status_cls f
    exact ⟨_, statusOf_of_fault hf, iff_of_true hcls ⟨f, hf⟩, fun h => nomatch hcls.symm.trans h⟩

/-! ### ReadDisplay (R219) -/

/-- What ReadDisplay returns is the display, its rows one after another. -/
theorem displayPixels_eq_flatten (s : State) : displayPixels s = s.disp.flatten.toList := by
  show _ = (s.disp.toArray.map Vector.toArray).flatten.toList
  rw [Array.toList_flatten, Array.toList_map, List.map_map]
  rfl

/-- Settles O49: position `r * 64 + c` of 32 rows of 64 is column `c` of row `r`. -/
theorem displayIsReadRowMajor : Obligations.DisplayIsReadRowMajor := by
  intro s
  rw [displayPixels_eq_flatten]
  refine ⟨Vector.length_toList, fun r c => ?_, rfl, rfl⟩
  have hlt : r.val * 64 + c.val < 32 * 64 := by omega
  have hrow : (r.val * 64 + c.val) / 64 = r.val := by omega
  have hcol : (r.val * 64 + c.val) % 64 = c.val := by omega
  rw [Vector.getElem?_toList, Vector.getElem?_eq_getElem hlt, Vector.getElem_flatten hlt]
  simp only [hrow, hcol, Display.pixel]

end Sys2Proof

/-! # Reset, loading and coming to rest (70_reset_and_hazards) -/

namespace Sys2Proof

open Machine

/-! ### A jump to itself (R247, R101, D24) -/

/-- A state is at rest when the word at `pc` encodes a jump to `pc` (R64, R247). -/
theorem atRest_iff {s : State} :
    atRest s = true ↔ ∃ nnn, fetch s = .ok (wordAddr 0x1 nnn) ∧ addrWord nnn = s.pc := by
  unfold atRest
  cases fetch s with
  | error f => simp
  | ok op => simp [eq_comm (a := op), wordAddr_eq_iff]

/-- A jump to where `pc` stands already only suppresses the Advance (R101). -/
theorem jumpTo_pc_self (s : State) : jumpTo s.pc s = s.setIncPc false := rfl

theorem exec_jp_self {nnn : Addr12} {s : State} (h : addrWord nnn = s.pc) :
    exec (.jp nnn) s = .next (s.setIncPc false) := by
  rw [← jumpTo_pc_self, ← h, exec, execJp]

/-- Settles O56: the jump writes to `pc` the value it has and suppresses the Advance, which then only undoes that. -/
theorem selfJumpIsAtRest : Obligations.SelfJumpIsAtRest := by
  intro s hrest hinc
  obtain ⟨nnn, hfetch, htarget⟩ := atRest_iff.mp hrest
  have hdecode : decodeWord (wordAddr 0x1 nnn) = .ok (.jp nnn) := decodeWord_encodeWord (i := .jp nnn) rfl
  have hexec : execute (wordAddr 0x1 nnn) s = .next (s.setIncPc false) :=
    (execute_of_ok hdecode s).trans (exec_jp_self htarget)
  have hstep : step s = .next s := by
    rw [step_of_execute_next hfetch hexec, advance_setIncPc_false hinc]
  refine ⟨hstep, ?_⟩
  rw [statusOf_step_of_next hstep, stepReport_of_ok hfetch hdecode]
  rfl

/-! ### Load (R233, R208, D26) -/

/-- A ROM that fits is stored from 0x200 on. -/
theorem doLoad_of_le {bytes : List Byte} (h : bytes.length ≤ 3584) (s : State) :
    doLoad bytes s = .next (s.storeBytes 0x200 bytes) := if_neg (Nat.not_lt_of_le h)

theorem doLoad_of_gt {bytes : List Byte} (h : 3584 < bytes.length) (s : State) :
    doLoad bytes s = .fault (.loadOverflow bytes.length) := if_pos h

/-- Settles O46: a ROM that fits is one store, which ends within memory and so reads back; a longer one faults. -/
theorem loadCopiesAllOrNothing : Obligations.LoadCopiesAllOrNothing := by
  refine fun bytes s => ⟨fun hfits => ?_, fun hlong => ?_⟩
  · exact ⟨_, doLoad_of_le hfits s, unchanged_storeBytes s 0x200 bytes, fun hs =>
      State.storeBytes_byteAt_inside hs (Nat.add_le_add_left hfits 0x200)⟩
  · have hfault : perform (.load bytes) s = .fault (.loadOverflow bytes.length) := doLoad_of_gt hlong s
    exact ⟨hfault, after_of_fault hfault⟩

/-! ### Initialize and the state after reset (R230, R231) -/

/-- The reset state is initialized, whatever the parameters: its memory lists no cell, so it reads as the font and zeros. -/
theorem initialized_resetWith (font : Font) (depth : Option Nat) : Initialized font (State.resetWith font depth) where
  pc := rfl
  index := rfl
  stack := rfl
  dt := rfl
  st := rfl
  key := rfl
  incPc := rfl
  regs := State.resetWith_getV font depth
  pixels := Display.pixel_clear
  fontCells := Memory.unlisted_font font
  otherCells := fun a _ => Memory.unlisted_zero font a

/-- The count of random draws is no part of Machine State (R134). -/
theorem Initialized.setDraws {font : Font} {s : State} (h : Initialized font s) (n : Nat) :
    Initialized font (s.setDraws n) := { h with }

/-- Settles O47: Initialize answers the reset state of the machine's own parameters, with its count of draws. -/
theorem initializeSetsEveryField : Obligations.InitializeSetsEveryField := fun s =>
  ⟨_, rfl, (initialized_resetWith s.font s.stackDepth).setDraws s.draws, rfl, rfl, rfl, rfl⟩

/-- Settles O48: the machine's own reset is `State.resetWith` of the defaults, and every reset state is initialized. -/
theorem resetState : Obligations.ResetState :=
  ⟨rfl, rfl, fun font depth => ⟨initialized_resetWith font depth, rfl, rfl⟩⟩

end Sys2Proof
